-- ==== Sys2Proof/Word.lean ====
section
/-! DEFINITION. The word types of the block: the byte of the output buffer, of the cache and of the
`width` and `max_width` operands (spec/00_scope.md R5), and the 64-bit value operand and counter. -/

namespace Sys2Proof

/-- An 8-bit byte: `cache`, a byte of `buffer`, an opcode, a `width` or `max_width` operand (R5, R21, R24, R81). -/
abbrev Byte := BitVec 8

/-- A 64-bit word: the value operand, the operand of SKIP, `bit_count` (R5, R23). -/
abbrev Word := BitVec 64

end Sys2Proof
end

