-- ==== Sys2Proof/Config.lean ====
section
/-! DEFINITION. The implementation parameters of spec/00_scope.md R5: the constants the source fixes, and
the one parameter it leaves open, BUF_CAP. The model has no free values: the spec leaves no value open
after a command that goes on. -/

namespace Sys2Proof

/-- The open parameter BUF_CAP: the largest number of bytes `buffer` may hold, `none` for unbounded
(R5, R25). "The model takes it as an argument": it stands in `State.config`, and no step writes it. -/
structure Config where
  bufCap : Option Nat
  deriving DecidableEq, Repr

/-- The spec's default: BUF_CAP unbounded (R5, R25). -/
def Config.default : Config := { bufCap := none }

/-- MAX_WRITE: the largest number of bits one call of the primitive may write (R5, R61). -/
def Config.maxWrite : Nat := 64

/-- The largest value of `bit_count`, 2^64 - 1 (R5 BITCOUNT_W, R23). -/
def Config.bitCountMax : Nat := 2 ^ 64 - 1

end Sys2Proof
end

