-- ==== Sys2Proof/Syntax.lean ====
section
/-! DEFINITION. The seventeen commands of spec/30_encoding.md R80 and R82, one constructor per row of
spec/opcode_table.json. A constructor carries the operands of its row, each at the width the source gives
it (R80, R84); construction is reset and no command (R80), and there is no FINISH (90_conflicts.md C1). -/

namespace Sys2Proof

/-- A command with its operands. The value of a signed writer is its two's-complement pattern (R84). -/
inductive Instr where
  /-- WU8 value, width (R102). -/
  | wu8 (value : BitVec 8) (width : Byte)
  /-- WU16 value, width (R103). -/
  | wu16 (value : BitVec 16) (width : Byte)
  /-- WU32 value, width (R104). -/
  | wu32 (value : BitVec 32) (width : Byte)
  /-- WU64 value, width (R105). -/
  | wu64 (value : BitVec 64) (width : Byte)
  /-- WI8 value, width (R106). -/
  | wi8 (value : BitVec 8) (width : Byte)
  /-- WI16 value, width (R107). -/
  | wi16 (value : BitVec 16) (width : Byte)
  /-- WI32 value, width (R108). -/
  | wi32 (value : BitVec 32) (width : Byte)
  /-- WI64 value, width (R109). -/
  | wi64 (value : BitVec 64) (width : Byte)
  /-- WBOOL value, width (R101). -/
  | wbool (value : Bool) (width : Byte)
  /-- WUB value, width, max_width (R69). -/
  | wub (value : Word) (width maxWidth : Byte)
  /-- WSB value, width, max_width (R71). -/
  | wsb (value : Word) (width maxWidth : Byte)
  /-- SKIP n (R120). -/
  | skip (n : Word)
  /-- ALIGN alignment_bytes (R123). -/
  | align (alignmentBytes : BitVec 32)
  /-- WBYTES data (R126): the list carries its own length (93_implementation_defined.md U14). -/
  | wbytes (bytes : List Byte)
  /-- CLOSE (R130). -/
  | close
  /-- BITCNT (R140). -/
  | bitcnt
  /-- DATA (R142). -/
  | data
  deriving DecidableEq, Repr

end Sys2Proof
end

