-- ==== Sys2Proof/WellFormed.lean ====
section
/-! DEFINITION. Which commands can be encoded. Every operand but one is bounded by its type; the payload of
WBYTES must be short enough for its length to stand in the 64-bit operand field (spec/30_encoding.md R84, R86). -/

namespace Sys2Proof

/-- The one check the encoding makes of a command: the number of payload bytes fits `operand[63:0]` (R86). -/
def wellFormed : Instr → Bool
  | .wbytes bytes => decide (bytes.length < 2 ^ 64)
  | .wu8 _ _ | .wu16 _ _ | .wu32 _ _ | .wu64 _ _ => true
  | .wi8 _ _ | .wi16 _ _ | .wi32 _ _ | .wi64 _ _ => true
  | .wbool _ _ | .wub _ _ _ | .wsb _ _ _ => true
  | .skip _ | .align _ | .close | .bitcnt | .data => true

end Sys2Proof
end

