-- ==== Sys2Proof/Decode.lean ====
section
/-! DEFINITION. The command word of spec/30_encoding.md: the 88-bit CMD format (R81), the opcode map (R82),
operand assembly (R84), ignored fields (R85), the payload of WBYTES (R86), reserved opcodes (R90). Decoding
is total on byte strings and rejects by name; the encoder stands after it. Every bit position here is the
spec's own decision (92_eei_decisions.md D2 to D9), not the source's. -/

namespace Sys2Proof

/-- The one command format, CMD: `op` 87:80, `width` 79:72, `max_width` 71:64, `operand` 63:0 (R81). -/
structure Cmd where
  op : Byte
  width : Byte
  maxWidth : Byte
  operand : Word
  deriving DecidableEq, Repr

/-- Why a byte string is no command. -/
inductive DecodeError where
  /-- The opcode names no command (R90). -/
  | reserved (op : Byte)
  /-- Fewer bytes than the word, or than the word and its payload (93_implementation_defined.md U14). -/
  | incomplete
  /-- More bytes than the word and its payload (DESIGN CHOICE, log 6). -/
  | excess
  deriving DecidableEq, Repr

/-- What the decoder answers. -/
inductive Decoded where
  | instr (i : Instr)
  | rejected (e : DecodeError)
  deriving DecidableEq, Repr

/-- Eight bytes, most-significant first, as one 64-bit field (R81: bytes 3 to 10 are `operand[63:56]` down to
`operand[7:0]`). -/
def operandOfBytes (b7 b6 b5 b4 b3 b2 b1 b0 : Byte) : Word :=
  b7 ++ b6 ++ b5 ++ b4 ++ b3 ++ b2 ++ b1 ++ b0

/-- The fields of a CMD word written as 11 bytes, and what follows them (R81). -/
def cmdOfBytes : List Byte → Option (Cmd × List Byte)
  | op :: w :: m :: b7 :: b6 :: b5 :: b4 :: b3 :: b2 :: b1 :: b0 :: rest =>
    some ({ op := op, width := w, maxWidth := m, operand := operandOfBytes b7 b6 b5 b4 b3 b2 b1 b0 }, rest)
  | _ => none

/-- A command without payload: nothing may follow its word in the same transaction (R81, R86, log 6). -/
def noPayload (payload : List Byte) (i : Instr) : Decoded :=
  if payload.isEmpty then .instr i else .rejected .excess

/-- WBYTES: exactly `len` payload bytes follow the word (R86); fewer are no complete command (U14), more are in excess (log 6). -/
def withPayload (len : Nat) (payload : List Byte) : Decoded :=
  if payload.length < len then .rejected .incomplete
  else if len < payload.length then .rejected .excess
  else .instr (.wbytes payload)

/-- The opcode map of R82 with the operand assembly of R84; a field a row does not use is ignored (R85); an
opcode in no row is reserved (R90). -/
def instrOfCmd (c : Cmd) (payload : List Byte) : Decoded :=
  match c.op with
  | 0x10#8 => noPayload payload (.wu8 (c.operand.extractLsb' 0 8) c.width)
  | 0x11#8 => noPayload payload (.wu16 (c.operand.extractLsb' 0 16) c.width)
  | 0x12#8 => noPayload payload (.wu32 (c.operand.extractLsb' 0 32) c.width)
  | 0x13#8 => noPayload payload (.wu64 c.operand c.width)
  | 0x14#8 => noPayload payload (.wi8 (c.operand.extractLsb' 0 8) c.width)
  | 0x15#8 => noPayload payload (.wi16 (c.operand.extractLsb' 0 16) c.width)
  | 0x16#8 => noPayload payload (.wi32 (c.operand.extractLsb' 0 32) c.width)
  | 0x17#8 => noPayload payload (.wi64 c.operand c.width)
  | 0x18#8 => noPayload payload (.wbool (c.operand.getLsbD 0) c.width)
  | 0x20#8 => noPayload payload (.wub c.operand c.width c.maxWidth)
  | 0x21#8 => noPayload payload (.wsb c.operand c.width c.maxWidth)
  | 0x30#8 => noPayload payload (.skip c.operand)
  | 0x31#8 => noPayload payload (.align (c.operand.extractLsb' 0 32))
  | 0x32#8 => withPayload c.operand.toNat payload
  | 0x33#8 => noPayload payload .close
  | 0x40#8 => noPayload payload .bitcnt
  | 0x41#8 => noPayload payload .data
  | op => .rejected (.reserved op)

/-- The command that one transaction's bytes are: the CMD word, most-significant byte first, and for WBYTES its
payload (R81, R86). -/
def decode (bytes : List Byte) : Decoded :=
  match cmdOfBytes bytes with
  | some (c, payload) => instrOfCmd c payload
  | none => .rejected .incomplete

/-- The opcode of each command (R82). -/
def opcodeOf : Instr → Byte
  | .wu8 _ _ => 0x10
  | .wu16 _ _ => 0x11
  | .wu32 _ _ => 0x12
  | .wu64 _ _ => 0x13
  | .wi8 _ _ => 0x14
  | .wi16 _ _ => 0x15
  | .wi32 _ _ => 0x16
  | .wi64 _ _ => 0x17
  | .wbool _ _ => 0x18
  | .wub _ _ _ => 0x20
  | .wsb _ _ _ => 0x21
  | .skip _ => 0x30
  | .align _ => 0x31
  | .wbytes _ => 0x32
  | .close => 0x33
  | .bitcnt => 0x40
  | .data => 0x41

/-- The CMD word of a command as an assembler writes it: unused fields are zero (R85), a value stands in the
low bits of the operand field (R84, R91). -/
def cmdOf (i : Instr) : Cmd :=
  match i with
  | .wu8 v w => { op := opcodeOf i, width := w, maxWidth := 0, operand := v.setWidth 64 }
  | .wu16 v w => { op := opcodeOf i, width := w, maxWidth := 0, operand := v.setWidth 64 }
  | .wu32 v w => { op := opcodeOf i, width := w, maxWidth := 0, operand := v.setWidth 64 }
  | .wu64 v w => { op := opcodeOf i, width := w, maxWidth := 0, operand := v }
  | .wi8 v w => { op := opcodeOf i, width := w, maxWidth := 0, operand := v.setWidth 64 }
  | .wi16 v w => { op := opcodeOf i, width := w, maxWidth := 0, operand := v.setWidth 64 }
  | .wi32 v w => { op := opcodeOf i, width := w, maxWidth := 0, operand := v.setWidth 64 }
  | .wi64 v w => { op := opcodeOf i, width := w, maxWidth := 0, operand := v }
  | .wbool v w => { op := opcodeOf i, width := w, maxWidth := 0, operand := (BitVec.ofBool v).setWidth 64 }
  | .wub v w m => { op := opcodeOf i, width := w, maxWidth := m, operand := v }
  | .wsb v w m => { op := opcodeOf i, width := w, maxWidth := m, operand := v }
  | .skip n => { op := opcodeOf i, width := 0, maxWidth := 0, operand := n }
  | .align k => { op := opcodeOf i, width := 0, maxWidth := 0, operand := k.setWidth 64 }
  | .wbytes bs => { op := opcodeOf i, width := 0, maxWidth := 0, operand := BitVec.ofNat 64 bs.length }
  | .close => { op := opcodeOf i, width := 0, maxWidth := 0, operand := 0 }
  | .bitcnt => { op := opcodeOf i, width := 0, maxWidth := 0, operand := 0 }
  | .data => { op := opcodeOf i, width := 0, maxWidth := 0, operand := 0 }

/-- The payload that follows a command's word: the bytes of WBYTES, nothing otherwise (R86). -/
def payloadOf : Instr → List Byte
  | .wbytes bs => bs
  | .wu8 _ _ | .wu16 _ _ | .wu32 _ _ | .wu64 _ _ => []
  | .wi8 _ _ | .wi16 _ _ | .wi32 _ _ | .wi64 _ _ => []
  | .wbool _ _ | .wub _ _ _ | .wsb _ _ _ => []
  | .skip _ | .align _ | .close | .bitcnt | .data => []

/-- A CMD word as 11 bytes, most-significant byte first (R81). -/
def bytesOfCmd (c : Cmd) : List Byte :=
  [c.op, c.width, c.maxWidth,
    c.operand.extractLsb' 56 8, c.operand.extractLsb' 48 8, c.operand.extractLsb' 40 8, c.operand.extractLsb' 32 8,
    c.operand.extractLsb' 24 8, c.operand.extractLsb' 16 8, c.operand.extractLsb' 8 8, c.operand.extractLsb' 0 8]

/-- The bytes of a well-formed command: its word, then its payload (R81, R86). -/
def encode (i : Instr) : List Byte :=
  bytesOfCmd (cmdOf i) ++ payloadOf i

/-- The bytes of the command whose bits, numbered as spec/opcode_table.json numbers them, are the low `nbits`
bits of `w`: bits 87 to 0 are the word, most-significant byte first (R81); bits 95:88, 103:96, ... are the payload
bytes of WBYTES in order (R86), as many as the word's length field asks for. -/
def wordBytes (nbits w : Nat) : List Byte :=
  let x := w % 2 ^ nbits
  let len := if x / 2 ^ 80 % 256 = 0x32 then x % 2 ^ 64 else 0
  (List.range 11).map (fun i => BitVec.ofNat 8 (x >>> (8 * (10 - i)))) ++
    (List.range len).map (fun j => BitVec.ofNat 8 (x >>> (88 + 8 * j)))

/-- The command the decoder reads from the bits `w`, numbered as the opcode table numbers them. -/
def decodeTableWord (nbits w : Nat) : Option Instr :=
  match decode (wordBytes nbits w) with
  | .instr i => some i
  | .rejected _ => none

end Sys2Proof
end

