-- ==== Sys2Proof/Machine/State.lean ====
section
/-! DEFINITION. The state of the block (spec/10_state.md) and of the model around it, the reasons a step can
stop, and the state after reset (R32). The spec's whole state is `WriterState`; `State` adds what the model
needs to run it: the commands the caller has issued, the last response, and the parameter BUF_CAP. -/

namespace Sys2Proof.Machine

/-- The output buffer as a memory (R24, R40): cells of (address, byte), in the one form `Memory.wf` says:
addresses 0, 1, 2, ... in order. An address with no cell has no byte: `Memory.unlisted`. -/
abbrev Memory := List Host.Cell

/-- "One entity: **WriterState**" (R20): the four pieces of state the spec gives the block and nothing more. -/
structure WriterState where
  /-- R24: the bytes already finalized, append-only. -/
  buffer : Memory
  /-- R23: total number of bits ever written, 64 bits unsigned. -/
  bitCount : Word
  /-- R21: the 0 to 7 bits not yet forming a byte, left-justified. -/
  cache : Byte
  /-- R22: how many bits of `cache` are valid, 0 to 7. -/
  pendingBits : Fin 8
  deriving DecidableEq, Repr

/-- The two error kinds (R150 to R152): "Two error kinds only". -/
inductive ErrorKind where
  /-- R151: a width above the command's maximum or above 64. -/
  | unsupportedWidth
  /-- R152: ALIGN with a zero alignment. -/
  | invalidArgument
  deriving DecidableEq, Repr

/-- The status of a response (R83). -/
inductive Status where
  | ok
  | error (e : ErrorKind)
  deriving DecidableEq, Repr

/-- The response that answers every command (R83): `status`, `result`, and for DATA the byte sequence, whose
length is the list's. -/
structure Response where
  status : Status
  result : Word
  data : Option (List Byte)
  deriving DecidableEq, Repr

/-- What the caller can send (R183): the reset input (R170), or one command as its bytes (R81, R86). -/
inductive Input where
  | reset
  | command (bytes : List Byte)
  deriving DecidableEq, Repr

/-- The block with its interface. `writer` is the spec's state (R20). The other three are the model's own:
R34 says that the command, its status and its result are inputs and outputs of a step and no state of the block,
and R5 that BUF_CAP is a parameter (logs 1, 2, 3). -/
structure State where
  /-- The spec's state. -/
  writer : WriterState
  /-- What the caller has issued and the block has not yet performed, oldest first (log 1). -/
  input : List Input
  /-- The response to the last command, none before the first and after a reset (log 2). -/
  response : Option Response
  /-- The parameter BUF_CAP; no step writes it (log 3). -/
  config : Config
  deriving DecidableEq, Repr

/-- The faults of the block: none. An error is the status of a response and stops nothing (R150, R155);
nothing else in the spec stops the block (R158, R184). Raised by nobody: safe. -/
inductive Fault
  deriving DecidableEq, Repr

/-- The spec's third outcome, "refused" (R9): inputs to which the spec gives no meaning. Each is safe: the model
has no next state where the spec has none. -/
inductive Refusal where
  /-- An instruction without a meaning in this model; raised by no arm of `exec`. Safe. -/
  | notModelled (mnemonic : String)
  /-- R90: the opcode names no command; raised by `step`. Safe. -/
  | reservedOpcode (op : Byte)
  /-- U14: the bytes of a transaction end before the word or its payload does; raised by `step`. Safe. -/
  | incompleteCommand
  /-- Bytes follow the word and its payload in one transaction (DESIGN CHOICE, log 6); raised by `step`. Safe. -/
  | excessPayload
  /-- The caller has issued nothing more, so the run has ended (R184, log 9); raised by `step`. Safe. -/
  | noCommand
  /-- R23: the command would carry `bit_count` past 2^64 - 1; raised by the writing commands. Safe. -/
  | bitCountOverflow
  /-- R25: the command would make `len(buffer)` exceed a finite BUF_CAP; raised by the writing commands. Safe. -/
  | bufferFull
  deriving DecidableEq, Repr

/-- The writer after reset: "Construction: produces an empty writer" (R32). -/
def WriterState.reset : WriterState :=
  { buffer := [], bitCount := 0, cache := 0, pendingBits := 0 }

/-- The machine right after reset: the empty writer (R32), nothing issued, no response yet (logs 1, 2), BUF_CAP at
its default (R5, R25). -/
def State.reset : State :=
  { writer := WriterState.reset, input := [], response := none, config := Config.default }

end Sys2Proof.Machine
end

