-- ==== Sys2Proof/Machine/Flags.lean ====
section
/-! DEFINITION. The predicates of the block. It has no flag register and no stored flag (spec/10_state.md R28);
what other machines keep in flags is computed here: the one derived predicate, byte-aligned (R28), and the
validation and range tests that decide a command's status (spec/40_core_write.md R61, spec/10_state.md R23, R25). -/

namespace Sys2Proof.Machine

/-- **Byte-aligned**: "state where `pending_bits == 0`" (R28); read by WBYTES only. -/
def byteAligned (ws : WriterState) : Bool := ws.pendingBits == 0

/-- The contract of the width (R61): `width <= max_width` and `width <= 64`, unsigned, on the whole 8-bit
operands. -/
def widthSupported (width maxWidth : Byte) : Bool :=
  decide (width.toNat ≤ maxWidth.toNat) && decide (width.toNat ≤ Config.maxWrite)

/-- How many bytes a write of `n` bits pushes: `(pending_bits + n) div 8` (R44). -/
def bytesPushed (ws : WriterState) (n : Nat) : Nat := (ws.pendingBits.val + n) / 8

/-- The command would carry `bit_count` past 2^64 - 1 (R23); judged on the whole command. -/
def counterOverflows (ws : WriterState) (n : Nat) : Bool := decide (Config.bitCountMax < ws.bitCount.toNat + n)

/-- The command would make `len(buffer)` exceed a finite BUF_CAP (R25); one that pushes nothing cannot (log 10). -/
def bufferOverflows (cfg : Config) (ws : WriterState) (n : Nat) : Bool :=
  match cfg.bufCap with
  | none => false
  | some cap => decide (0 < bytesPushed ws n) && decide (cap < ws.buffer.length + bytesPushed ws n)

/-- The range refusals of R23 and R25, in that order, for a command that writes `n` bits in all; they come after the
command's own validation (R154). -/
def rangeRefusal (cfg : Config) (ws : WriterState) (n : Nat) : Option Refusal :=
  if counterOverflows ws n then some .bitCountOverflow
  else if bufferOverflows cfg ws n then some .bufferFull
  else none

end Sys2Proof.Machine
end

