-- ==== Sys2Proof/Machine/Operands.lean ====
section
/-! DEFINITION. From a command's operands to what the primitive takes: extension (spec/00_scope.md R7,
spec/30_encoding.md R84), the width mask (spec/40_core_write.md R62), the sign fold (R70), the byte-aligner
(spec/42_structural.md R124). -/

namespace Sys2Proof.Machine

/-- The low 8 bits of a natural number: `(e)[7:0]` (R7). -/
def byteOf (e : Nat) : Byte := BitVec.ofNat 8 e

/-- `zext_N(v)` as a 64-bit value (R7, R84). -/
def zextValue {n : Nat} (v : BitVec n) : Word := v.setWidth 64

/-- `u64(sext_N(v))`: the 64-bit two's-complement pattern of an N-bit signed value (R7, R84). -/
def sextValue {n : Nat} (v : BitVec n) : Word := v.signExtend 64

/-- The boolean of WBOOL as a value: true is 1, false is 0 (R84, R101). -/
def boolValue (b : Bool) : Word := (BitVec.ofBool b).setWidth 64

/-- The width mask (R62): `value & ((1 << width) - 1)`, no mask at width 64. -/
def maskValue (value : Word) (width : Nat) : Nat :=
  if width = 64 then value.toNat else value.toNat &&& ((1 <<< width) - 1)

/-- `SignFold(value, width)` (R70) on the 64-bit pattern of the value: a negative value gets bit `width-1` forced
to 1, but at width 64 the pattern is used as it is. Called with `1 <= width <= 64` only. -/
def signFold (value : Word) (width : Nat) : Word :=
  if value.toInt < 0 ∧ width ≠ 64 then value ||| (1#64 <<< (width - 1)) else value

/-- `alignment_bits = 8 * alignment_bytes`, exact (R124). -/
def alignmentBits (alignmentBytes : BitVec 32) : Nat := 8 * alignmentBytes.toNat

/-- The pad computation of ALIGN (R123, R124). -/
def bitsToSkip (bitCount : Word) (alignmentBytes : BitVec 32) : Nat :=
  (alignmentBits alignmentBytes - bitCount.toNat % alignmentBits alignmentBytes) % alignmentBits alignmentBytes

end Sys2Proof.Machine
end

