-- ==== Sys2Proof/Machine/Ops.lean ====
section
/-! DEFINITION. The named operations over the buffer and the registers: reading and pushing bytes
(spec/00_scope.md R8), the core write primitive (spec/40_core_write.md R60 to R66), the bodies of SKIP and WBYTES
(spec/42_structural.md R120, R126), reset (spec/70_reset_and_hazards.md R170), and how a command is answered
(spec/30_encoding.md R83): its success, its error (the block's whole exception entry, spec/60_exceptions.md
R150 to R156; there is no return from it, R156), its refusal. -/

namespace Sys2Proof.Machine

/-- What an address without a byte reads as: nothing. MemRead is defined only below `len(buffer)` (R8). -/
def Memory.unlisted : Option Byte := none

/-- One byte of the buffer, `buffer[addr]` (R8). -/
def Memory.readByte : Memory → Nat → Option Byte
  | [], _ => Memory.unlisted
  | (a, b) :: rest, addr => if a = addr then some b else Memory.readByte rest addr

/-- `MemRead(addr, n)`: defined only when `addr + n <= len(buffer)` (R8). -/
def Memory.read (m : Memory) (addr n : Nat) : Option (List Byte) :=
  if addr + n ≤ m.length then (List.range' addr n).mapM m.readByte else none

/-- `PushByte(b)`: `MemWrite(len(buffer), 1, b)`, the only write of the block (R8, R24). -/
def Memory.push (m : Memory) (b : Byte) : Memory := m ++ [(m.length, b)]

/-- Bytes pushed one after another, the first first. -/
def Memory.pushAll (m : Memory) (bs : List Byte) : Memory := bs.foldl Memory.push m

/-- The byte sequence `buffer[0], buffer[1], ...` (R24, R142). -/
def Memory.bytes (m : Memory) : List Byte := m.map Prod.snd

/-- The canonical form of the buffer: its cells are at the addresses 0, 1, 2, ... in this order (R24, R40, R48). -/
def Memory.wf (m : Memory) : Bool := m.map Prod.fst == List.range m.length

/-- `PushByte(b)` on the writer (R8). -/
def WriterState.pushByte (b : Byte) (ws : WriterState) : WriterState :=
  { ws with buffer := ws.buffer.push b }

/-- `bit_count <- bit_count + width` (R63). -/
def WriterState.countBits (n : Nat) (ws : WriterState) : WriterState :=
  { ws with bitCount := ws.bitCount + BitVec.ofNat 64 n }

/-- The loop of R65: `while w >= 8: PushByte((v >> (w - 8))[7:0]); w = w - 8`, with its trip count `w div 8` as the
first argument (R65 (f)). -/
def emitBytes : Nat → Nat → Nat → WriterState → WriterState
  | 0, _, _, ws => ws
  | trips + 1, v, w, ws => emitBytes trips v (w - 8) (ws.pushByte (byteOf (v >>> (w - 8))))

/-- Merge, case one (R64): the `width` bits of `v` fit in the cache. -/
def mergeInCache (v width : Nat) (ws : WriterState) : WriterState :=
  let newBits := ws.pendingBits.val + width
  { ws with cache := ws.cache ||| byteOf (v <<< (8 - newBits)), pendingBits := Fin.ofNat 8 newBits }

/-- Merge, case two (R65): at least one byte is completed. -/
def mergeAcrossBytes (v width : Nat) (ws : WriterState) : WriterState :=
  let free := 8 - ws.pendingBits.val
  let w := width - free
  let emitted := emitBytes (w / 8) v w (ws.pushByte (ws.cache ||| byteOf (v >>> w)))
  { emitted with cache := byteOf (v <<< (8 - w % 8)), pendingBits := Fin.ofNat 8 (w % 8) }

/-- The merge (R64, R65): which case applies is decided by `new_bits < 8`. -/
def mergeBits (v width : Nat) (ws : WriterState) : WriterState :=
  if ws.pendingBits.val + width < 8 then mergeInCache v width ws else mergeAcrossBytes v width ws

/-- The primitive after its validation (R61 to R65): width 0 writes nothing; otherwise mask, count, merge. -/
def packBits (value : Word) (width : Nat) (ws : WriterState) : WriterState :=
  if width = 0 then ws else mergeBits (maskValue value width) width (ws.countBits width)

/-- The loop of SKIP (R120): `WriteBits(0, 64, 64)` so many times. -/
def skipChunks : Nat → WriterState → WriterState
  | 0, ws => ws
  | trips + 1, ws => skipChunks trips (packBits 0 64 ws)

/-- The body of SKIP (R120): `n div 64` chunks of 64 zero bits, then the `n mod 64` that remain. -/
def skipBits (n : Nat) (ws : WriterState) : WriterState :=
  packBits 0 (n % 64) (skipChunks (n / 64) ws)

/-- The fast path of WBYTES (R127): the bytes go to `buffer` unchanged, `bit_count` grows by `8*len` at once. -/
def appendAligned (bytes : List Byte) (ws : WriterState) : WriterState :=
  { ws with buffer := ws.buffer.pushAll bytes, bitCount := ws.bitCount + BitVec.ofNat 64 (8 * bytes.length) }

/-- The slow path of WBYTES (R128): each byte, in order, through `WriteBits(b, 8, 8)`. -/
def appendUnaligned : List Byte → WriterState → WriterState
  | [], ws => ws
  | b :: rest, ws => appendUnaligned rest (packBits (zextValue b) 8 ws)

/-- The body of WBYTES (R126): the path is chosen once, from the state at the start. -/
def appendBytes (bytes : List Byte) (ws : WriterState) : WriterState :=
  if byteAligned ws then appendAligned bytes ws else appendUnaligned bytes ws

/-- The 2-bit code of a status: 0 OK, 1 UnsupportedWidth, 2 InvalidArgument, 3 never (R83). -/
def Status.code : Status → BitVec 2
  | .ok => 0
  | .error .unsupportedWidth => 1
  | .error .invalidArgument => 2

/-- The response of a success that carries nothing: `result` is zero (R83). -/
def Response.done : Response := { status := .ok, result := 0, data := none }

/-- The response of an error: `result` is zero and nothing else is carried (R83, R151, R152). -/
def Response.failed (e : ErrorKind) : Response := { status := .error e, result := 0, data := none }

/-- The state after a command that succeeded with the writer `ws` and no result. -/
def State.done (s : State) (ws : WriterState) : State :=
  { s with writer := ws, response := some Response.done }

/-- The state after a command that failed: the writer exactly as before, the error in the response (R150). -/
def State.failed (s : State) (e : ErrorKind) : State :=
  { s with response := some (Response.failed e) }

/-- The state after an accessor: the writer exactly as before, the response `r` (R47, R140, R142). -/
def State.answered (s : State) (r : Response) : State := { s with response := some r }

/-- `raise e` (R8, R150): TAKING AN ERROR, the block's one exception entry. It saves nothing, changes no mode and
goes nowhere (R155); the command's status is the error and the block is ready for the next command. -/
def raise (e : ErrorKind) (s : State) : Host.Outcome State Fault Refusal := .next (s.failed e)

/-- `return OK` with the writer `ws`, reached by writing `n` bits in all, unless the command as a whole is out of
range (R23, R25): then it is refused and nothing is written. -/
def commit (n : Nat) (ws : WriterState) (s : State) : Host.Outcome State Fault Refusal :=
  match rangeRefusal s.config s.writer n with
  | some r => .refused r
  | none => .next (s.done ws)

/-- `WriteBits(value, width, max_width)` as a command's whole body (R66). -/
def writeBits (value : Word) (width maxWidth : Byte) (s : State) : Host.Outcome State Fault Refusal :=
  if widthSupported width maxWidth then commit width.toNat (packBits value width.toNat s.writer) s
  else raise .unsupportedWidth s

/-- The signed variant (R71): validate, stop at width 0, fold the sign, then the primitive. -/
def writeSigned (value : Word) (width maxWidth : Byte) (s : State) : Host.Outcome State Fault Refusal :=
  if widthSupported width maxWidth then
    if width.toNat = 0 then commit 0 s.writer s
    else writeBits (signFold value width.toNat) width maxWidth s
  else raise .unsupportedWidth s

/-- SKIP of `n` bits as a command's whole body (R120, R121). -/
def skipZeros (n : Nat) (s : State) : Host.Outcome State Fault Refusal :=
  commit n (skipBits n s.writer) s

/-- ALIGN as a command's whole body (R123). -/
def alignTo (alignmentBytes : BitVec 32) (s : State) : Host.Outcome State Fault Refusal :=
  if alignmentBytes = 0 then raise .invalidArgument s
  else skipZeros (bitsToSkip s.writer.bitCount alignmentBytes) s

/-- Reset (R170): the empty writer, whatever was there; nothing has been answered since (log 2), and what the caller
issued after the reset is still to be performed. -/
def State.applyReset (s : State) : State := { s with writer := WriterState.reset, response := none }

/-- The refusal of a byte string that is no command (R90, U14; surplus bytes: log 6). -/
def refusalOf : DecodeError → Refusal
  | .reserved op => .reservedOpcode op
  | .incomplete => .incompleteCommand
  | .excess => .excessPayload

end Sys2Proof.Machine
end

