-- ==== Sys2Proof/Machine/Accessors.lean ====
section
/-! DEFINITION. The accessors BITCNT and DATA (spec/43_accessors.md R140, R142): they answer and change nothing. -/

namespace Sys2Proof.Machine

/-- BITCNT: `result <- bit_count` (R140). -/
def execBitcnt (s : State) : Host.Outcome State Fault Refusal :=
  .next (s.answered { status := .ok, result := s.writer.bitCount, data := none })

/-- DATA: the byte sequence built so far, as a snapshot (R142). -/
def execData (s : State) : Host.Outcome State Fault Refusal :=
  .next (s.answered { status := .ok, result := 0, data := some s.writer.buffer.bytes })

end Sys2Proof.Machine
end

