-- ==== Sys2Proof/Machine/Generic.lean ====
section
/-! DEFINITION. The generic writes WUB and WSB (spec/40_core_write.md R69, R71). -/

namespace Sys2Proof.Machine

/-- WUB value, width, max_width (R69). -/
def execWub (value : Word) (width maxWidth : Byte) (s : State) : Host.Outcome State Fault Refusal :=
  writeBits value width maxWidth s

/-- WSB value, width, max_width (R71). -/
def execWsb (value : Word) (width maxWidth : Byte) (s : State) : Host.Outcome State Fault Refusal :=
  writeSigned value width maxWidth s

end Sys2Proof.Machine
end

