-- ==== Sys2Proof/Machine/Structural.lean ====
section
/-! DEFINITION. SKIP, ALIGN, WBYTES, CLOSE (spec/42_structural.md R120 to R131). -/

namespace Sys2Proof.Machine

/-- SKIP n (R120). -/
def execSkip (n : Word) (s : State) : Host.Outcome State Fault Refusal :=
  skipZeros n.toNat s

/-- ALIGN alignment_bytes (R123). -/
def execAlign (alignmentBytes : BitVec 32) (s : State) : Host.Outcome State Fault Refusal :=
  alignTo alignmentBytes s

/-- WBYTES data (R126). -/
def execWbytes (bytes : List Byte) (s : State) : Host.Outcome State Fault Refusal :=
  commit (8 * bytes.length) (appendBytes bytes s.writer) s

/-- CLOSE: "equivalent to `align(1)`" (R130). -/
def execClose (s : State) : Host.Outcome State Fault Refusal :=
  alignTo 1 s

end Sys2Proof.Machine
end

