-- ==== Sys2Proof/Machine/Typed.lean ====
section
/-! DEFINITION. The nine typed writers (spec/41_typed_writers.md R100 to R109): the generic write with
`max_width` fixed to the type's native size. -/

namespace Sys2Proof.Machine

/-- WBOOL value, width: native size 1 (R101). -/
def execWbool (value : Bool) (width : Byte) (s : State) : Host.Outcome State Fault Refusal :=
  writeBits (boolValue value) width 1 s

/-- WU8 value, width (R102). -/
def execWu8 (value : BitVec 8) (width : Byte) (s : State) : Host.Outcome State Fault Refusal :=
  writeBits (zextValue value) width 8 s

/-- WU16 value, width (R103). -/
def execWu16 (value : BitVec 16) (width : Byte) (s : State) : Host.Outcome State Fault Refusal :=
  writeBits (zextValue value) width 16 s

/-- WU32 value, width (R104). -/
def execWu32 (value : BitVec 32) (width : Byte) (s : State) : Host.Outcome State Fault Refusal :=
  writeBits (zextValue value) width 32 s

/-- WU64 value, width (R105). -/
def execWu64 (value : BitVec 64) (width : Byte) (s : State) : Host.Outcome State Fault Refusal :=
  writeBits value width 64 s

/-- WI8 value, width (R106). -/
def execWi8 (value : BitVec 8) (width : Byte) (s : State) : Host.Outcome State Fault Refusal :=
  writeSigned (sextValue value) width 8 s

/-- WI16 value, width (R107). -/
def execWi16 (value : BitVec 16) (width : Byte) (s : State) : Host.Outcome State Fault Refusal :=
  writeSigned (sextValue value) width 16 s

/-- WI32 value, width (R108). -/
def execWi32 (value : BitVec 32) (width : Byte) (s : State) : Host.Outcome State Fault Refusal :=
  writeSigned (sextValue value) width 32 s

/-- WI64 value, width (R109). -/
def execWi64 (value : BitVec 64) (width : Byte) (s : State) : Host.Outcome State Fault Refusal :=
  writeSigned value width 64 s

end Sys2Proof.Machine
end

