-- ==== Sys2Proof/Machine/Dispatch.lean ====
section
/-! DEFINITION. One arm per command of spec/30_encoding.md R82: each calls its meaning. -/

namespace Sys2Proof.Machine

/-- The effect of one command, whole (R11). -/
def exec (i : Instr) (s : State) : Host.Outcome State Fault Refusal :=
  match i with
  | .wu8 value width => Sys2Proof.Machine.execWu8 value width s
  | .wu16 value width => Sys2Proof.Machine.execWu16 value width s
  | .wu32 value width => Sys2Proof.Machine.execWu32 value width s
  | .wu64 value width => Sys2Proof.Machine.execWu64 value width s
  | .wi8 value width => Sys2Proof.Machine.execWi8 value width s
  | .wi16 value width => Sys2Proof.Machine.execWi16 value width s
  | .wi32 value width => Sys2Proof.Machine.execWi32 value width s
  | .wi64 value width => Sys2Proof.Machine.execWi64 value width s
  | .wbool value width => Sys2Proof.Machine.execWbool value width s
  | .wub value width maxWidth => Sys2Proof.Machine.execWub value width maxWidth s
  | .wsb value width maxWidth => Sys2Proof.Machine.execWsb value width maxWidth s
  | .skip n => Sys2Proof.Machine.execSkip n s
  | .align alignmentBytes => Sys2Proof.Machine.execAlign alignmentBytes s
  | .wbytes bytes => Sys2Proof.Machine.execWbytes bytes s
  | .close => Sys2Proof.Machine.execClose s
  | .bitcnt => Sys2Proof.Machine.execBitcnt s
  | .data => Sys2Proof.Machine.execData s

end Sys2Proof.Machine
end

