-- ==== Sys2Proof/Machine/Step.lean ====
section
/-! DEFINITION. One step of the machine: the oldest input of the caller is taken and performed whole
(spec/00_scope.md R10, R11; spec/20_memory.md R50). The block has no program counter and fetches from no memory
(spec/10_state.md R27, spec/20_memory.md R53): its next command is what the caller issued next. -/

namespace Sys2Proof.Machine

/-- Reset is an input between two commands (R170); a command is decoded and performed (R11); bytes that are no command
are refused (R90, U14, log 6); with nothing issued the run has ended (R184, log 9). -/
def step (s : State) : Host.Outcome State Fault Refusal :=
  match s.input with
  | [] => .refused .noCommand
  | .reset :: rest => .next { s.applyReset with input := rest }
  | .command bytes :: rest =>
    match decode bytes with
    | .instr i => exec i { s with input := rest }
    | .rejected e => .refused (refusalOf e)

/-- The state in which the command with the bits `w` (numbered as the opcode table numbers them) is the caller's next
input, so that the next step performs it. It stands for the caller's issuing that command (log 1). -/
def State.withFetchWord (s : State) (nbits w : Nat) : State :=
  { s with input := .command (wordBytes nbits w) :: s.input }

end Sys2Proof.Machine
end

