-- ==== Sys2Proof/Safety.lean ====
section
/-! DEFINITION. The vocabulary of the claims: the invariants of spec/10_state.md R26, the output stream of
spec/20_memory.md R41, what a write appends in closed form (spec/40_core_write.md R67), when a command is in range
(spec/10_state.md R23, R25), which error a command has (spec/60_exceptions.md R153), how many bits it writes, and a
run of several commands. Nothing here is used by the machine. -/

namespace Sys2Proof.Machine

/-- R26 (b): the cache carries no garbage below its valid bits, `cache[7-pending_bits : 0] = 0`. -/
abbrev WriterState.CacheClean (ws : WriterState) : Prop := ws.cache.toNat % 2 ^ (8 - ws.pendingBits.val) = 0

/-- The invariants of R26 that speak of one state. (a) `pending_bits < 8` holds by the register's type; (b) the
cache is clean; (c) `bit_count = 8*len(buffer) + pending_bits`; and the buffer is in its canonical form (R24). -/
structure WriterState.Inv (ws : WriterState) : Prop where
  canonical : ws.buffer.wf = true
  pending_lt : ws.pendingBits.val < 8
  clean : ws.CacheClean
  counted : ws.bitCount.toNat = 8 * ws.buffer.length + ws.pendingBits.val

/-- R25: a finite BUF_CAP is not exceeded. -/
def State.WithinCapacity (s : State) : Prop := ∀ cap, s.config.bufCap = some cap → s.writer.buffer.length ≤ cap

/-- The invariant of the whole machine: R26 of the writer, R25 of the buffer. -/
structure State.Inv (s : State) : Prop where
  writer : s.writer.Inv
  capacity : s.WithinCapacity

/-- A command that writes `n` bits in all is in range: it does not carry `bit_count` past 2^64 - 1 (R23), and it does
not make `len(buffer)` exceed a finite BUF_CAP (R25). -/
structure State.RoomFor (s : State) (n : Nat) : Prop where
  counter : s.writer.bitCount.toNat + n ≤ 2 ^ 64 - 1
  buffer : ∀ cap, s.config.bufCap = some cap → (s.writer.pendingBits.val + n) / 8 = 0 ∨
    s.writer.buffer.length + (s.writer.pendingBits.val + n) / 8 ≤ cap

/-- The low `n` bits of `v`, most-significant first: `v[n-1], ..., v[0]` (R42). -/
def bitsOf (v n : Nat) : List Bool := (List.range n).map fun i => v.testBit (n - 1 - i)

/-- The bits of a byte from bit 7 down to bit 0 (R41). -/
def bitsOfByte (b : Byte) : List Bool := bitsOf b.toNat 8

/-- The output stream (R41): the bits of `buffer[0]`, `buffer[1]`, ..., then the valid bits of `cache`. -/
def WriterState.stream (ws : WriterState) : List Bool :=
  ws.buffer.bytes.flatMap bitsOfByte ++ (bitsOfByte ws.cache).take ws.pendingBits.val

/-- The `t div 8` whole bytes at the top of a `t`-bit number `x`: `x[t-1 : t-8], x[t-9 : t-16], ...` (R67). -/
def topBytes (x t : Nat) : List Byte := (List.range (t / 8)).map fun i => BitVec.ofNat 8 (x / 2 ^ (t - 8 * (i + 1)))

/-- What a write of the low `n` bits of `v` achieves, in the closed form of R67: with `a` the pending bits as a number,
`X = a * 2^n + v` and `t = pending_bits + n`, the top `t div 8` bytes of `X` are pushed and the `t mod 8` bits that remain
are the new cache, left-justified. -/
def WriterState.appendBits (ws : WriterState) (v n : Nat) : WriterState :=
  let a := ws.cache.toNat / 2 ^ (8 - ws.pendingBits.val)
  let t := ws.pendingBits.val + n
  let x := a * 2 ^ n + v % 2 ^ n
  { buffer := ws.buffer.pushAll (topBytes x t)
    bitCount := ws.bitCount + BitVec.ofNat 64 n
    cache := BitVec.ofNat 8 (x % 2 ^ (t % 8) * 2 ^ (8 - t % 8))
    pendingBits := Fin.ofNat 8 (t % 8) }

/-- A byte list as one number, its first byte most significant (R42, R129). -/
def numberOfBytes (bs : List Byte) : Nat := bs.foldl (fun acc b => acc * 256 + b.toNat) 0

/-- The pattern that reaches the stream for a signed value at width `1 <= width <= 64` (R70): the low `width` bits, with the
top one forced to 1 when the value is negative and the width is not 64. -/
def signedPattern (value : Word) (width : Nat) : Nat :=
  if value.toInt < 0 ∧ width ≠ 64 then value.toNat % 2 ^ width ||| 2 ^ (width - 1) else value.toNat % 2 ^ width

/-- Which error a command returns, by its operands alone (R153). -/
def errorOf : Instr → Option ErrorKind
  | .wub _ w m | .wsb _ w m => if m.toNat < w.toNat ∨ 64 < w.toNat then some .unsupportedWidth else none
  | .wbool _ w => if 1 < w.toNat then some .unsupportedWidth else none
  | .wu8 _ w | .wi8 _ w => if 8 < w.toNat then some .unsupportedWidth else none
  | .wu16 _ w | .wi16 _ w => if 16 < w.toNat then some .unsupportedWidth else none
  | .wu32 _ w | .wi32 _ w => if 32 < w.toNat then some .unsupportedWidth else none
  | .wu64 _ w | .wi64 _ w => if 64 < w.toNat then some .unsupportedWidth else none
  | .align k => if k.toNat = 0 then some .invalidArgument else none
  | .skip _ | .wbytes _ | .close | .bitcnt | .data => none

/-- The least number of zero bits that brings `bitCount` to a multiple of `8 * k` (R124). -/
def padTo (bitCount k : Nat) : Nat := (8 * k - bitCount % (8 * k)) % (8 * k)

/-- How many bits a command writes when it succeeds (R23, R45). -/
def bitsWritten (i : Instr) (s : State) : Nat :=
  match i with
  | .wub _ w _ | .wsb _ w _ | .wbool _ w => w.toNat
  | .wu8 _ w | .wu16 _ w | .wu32 _ w | .wu64 _ w => w.toNat
  | .wi8 _ w | .wi16 _ w | .wi32 _ w | .wi64 _ w => w.toNat
  | .skip n => n.toNat
  | .align k => padTo s.writer.bitCount.toNat k.toNat
  | .wbytes bs => 8 * bs.length
  | .close => padTo s.writer.bitCount.toNat 1
  | .bitcnt | .data => 0

/-- Commands performed one after another, in the order of issue (R50), stopping at a refusal. -/
def performAll : List Instr → State → Host.Outcome State Fault Refusal
  | [], s => .next s
  | i :: rest, s =>
    match exec i s with
    | .next t => performAll rest t
    | .fault f => .fault f
    | .refused r => .refused r

/-- The next state of an outcome, if it has one. -/
def nextState? : Host.Outcome State Fault Refusal → Option State
  | .next t => some t
  | .fault _ => none
  | .refused _ => none

end Sys2Proof.Machine
end

