-- ==== Sys2Proof/Certificates/Slice0/Obligations.lean ====
section
/-! DEFINITION. The statements for the provers. Each says, in the vocabulary of Sys2Proof/Safety.lean, what a rule of spec/ says
of a command or of the machine. "Completes" below means: `exec` answers a next state for every state and operands that meet
the hypotheses named, which are conditions on the state and the operands alone. -/

open Sys2Proof Sys2Proof.Machine

/-! ### The command word -/

/-- Decoding the bytes of a well-formed command gives it back, for every command and every operand value. The encoding is the
spec's own decision (92_eei_decisions.md D2 to D9, log 14). -/
def Obligations.EncodedCommandsDecodeBack : Prop :=
  ∀ i : Instr, wellFormed i = true → decode (encode i) = .instr i

/-- Whatever the decoder accepts is one well-formed command, whole: 11 bytes of word that begin with the command's opcode, and
then exactly its payload. (The spec's decisions D2, D3, D9; log 14. That nothing may stand behind the payload is the model's
choice, log 6.) -/
def Obligations.AcceptedBytesAreOneWholeCommand : Prop :=
  ∀ (bs : List Byte) (i : Instr), decode bs = .instr i →
    wellFormed i = true ∧ bs.length = 11 + (payloadOf i).length ∧ bs.head? = some (opcodeOf i) ∧ bs.drop 11 = payloadOf i

/-- Every word of every opcode of R82, with any byte in every field: the operands are taken from the places R84 gives, `N` being
the operand field as a number, and the fields R85 lists are ignored, since they stand on the left only. (The spec's decisions D2
to D4 and D7 to D9; log 14.) -/
def Obligations.OperandsAreReadFromTheirFields : Prop :=
  ∀ w m b7 b6 b5 b4 b3 b2 b1 b0 : Byte, ∀ N : Nat, N = numberOfBytes [b7, b6, b5, b4, b3, b2, b1, b0] →
    let word (op : Byte) : List Byte := [op, w, m, b7, b6, b5, b4, b3, b2, b1, b0]
    decode (word 0x10) = .instr (.wu8 (BitVec.ofNat 8 N) w) ∧
    decode (word 0x11) = .instr (.wu16 (BitVec.ofNat 16 N) w) ∧
    decode (word 0x12) = .instr (.wu32 (BitVec.ofNat 32 N) w) ∧
    decode (word 0x13) = .instr (.wu64 (BitVec.ofNat 64 N) w) ∧
    decode (word 0x14) = .instr (.wi8 (BitVec.ofNat 8 N) w) ∧
    decode (word 0x15) = .instr (.wi16 (BitVec.ofNat 16 N) w) ∧
    decode (word 0x16) = .instr (.wi32 (BitVec.ofNat 32 N) w) ∧
    decode (word 0x17) = .instr (.wi64 (BitVec.ofNat 64 N) w) ∧
    decode (word 0x18) = .instr (.wbool (decide (N % 2 = 1)) w) ∧
    decode (word 0x20) = .instr (.wub (BitVec.ofNat 64 N) w m) ∧
    decode (word 0x21) = .instr (.wsb (BitVec.ofNat 64 N) w m) ∧
    decode (word 0x30) = .instr (.skip (BitVec.ofNat 64 N)) ∧
    decode (word 0x31) = .instr (.align (BitVec.ofNat 32 N)) ∧
    (∀ payload : List Byte, payload.length = N → decode (word 0x32 ++ payload) = .instr (.wbytes payload)) ∧
    decode (word 0x33) = .instr .close ∧
    decode (word 0x40) = .instr .bitcnt ∧
    decode (word 0x41) = .instr .data

/-- A word is rejected as reserved exactly when its opcode is in one of R90's ranges, and the machine then refuses it: no next
state, no error, no no-op. (The spec's decision D5; log 5.) -/
def Obligations.ReservedOpcodesAreRefused : Prop :=
  ∀ (op : Byte) (tail : List Byte), 10 ≤ tail.length →
    let reserved : Prop := op.toNat ≤ 0x0F ∨ (0x19 ≤ op.toNat ∧ op.toNat ≤ 0x1F) ∨ (0x22 ≤ op.toNat ∧ op.toNat ≤ 0x2F) ∨
      (0x34 ≤ op.toNat ∧ op.toNat ≤ 0x3F) ∨ 0x42 ≤ op.toNat
    (decode (op :: tail) = .rejected (.reserved op) ↔ reserved) ∧
    (reserved → ∀ (s : State) (rest : List Input), s.input = .command (op :: tail) :: rest →
      step s = .refused (.reservedOpcode op))

/-- A transaction whose bytes end before its word or its payload does, or go on after it, is no command. That bytes which run out
are no complete command is the spec's treatment U14 in 93_implementation_defined.md. That surplus bytes make the transaction no
command, behind the payload of WBYTES (the second half of the second clause) and behind any command (the third clause), and the
names of the rejections, are the model's choice (log 6): surplus bytes could begin the next command. -/
def Obligations.MismatchedPayloadsAreRejected : Prop :=
  (∀ bs : List Byte, bs.length < 11 → decode bs = .rejected .incomplete) ∧
  (∀ w m b7 b6 b5 b4 b3 b2 b1 b0 : Byte, ∀ payload : List Byte,
    let len := numberOfBytes [b7, b6, b5, b4, b3, b2, b1, b0]
    (payload.length < len → decode ([0x32, w, m, b7, b6, b5, b4, b3, b2, b1, b0] ++ payload) = .rejected .incomplete) ∧
    (len < payload.length → decode ([0x32, w, m, b7, b6, b5, b4, b3, b2, b1, b0] ++ payload) = .rejected .excess)) ∧
  (∀ (i : Instr) (extra : List Byte), wellFormed i = true → extra ≠ [] → decode (encode i ++ extra) = .rejected .excess)

/-- Words written out from the spec's encodings (95_test_vectors.md section 2.7) decode to what they stand for, two of them with
bits in ignored fields. -/
def Obligations.WrittenOutWordsDecode : Prop :=
  decode [0x10, 0x08, 0xFF, 0x12, 0x34, 0x56, 0x78, 0x9A, 0xBC, 0xDE, 0xAB] = .instr (.wu8 0xAB 8) ∧
  decode [0x16, 0x1C, 0x00, 0x00, 0x00, 0x00, 0x00, 0xFE, 0xAA, 0xAA, 0xAA] = .instr (.wi32 (BitVec.ofInt 32 (-22369622)) 28) ∧
  decode [0x21, 0x08, 0x40, 0xFF, 0xFF, 0xFF, 0xFF, 0xFF, 0xFF, 0xFF, 0x38] = .instr (.wsb (BitVec.ofInt 64 (-200)) 8 64) ∧
  decode [0x31, 0x00, 0x00, 0x00, 0x00, 0x00, 0x01, 0x00, 0x00, 0x00, 0x00] = .instr (.align 0) ∧
  decode [0x32, 0x00, 0x00, 0x00, 0x00, 0x00, 0x00, 0x00, 0x00, 0x00, 0x02, 0xAB, 0xCD] = .instr (.wbytes [0xAB, 0xCD]) ∧
  decode [0x33, 0x40, 0x40, 0xFF, 0xFF, 0xFF, 0xFF, 0xFF, 0xFF, 0xFF, 0xFF] = .instr .close

/-! ### Steps and reset -/

/-- A step performs the command the caller issued next: it is taken off the input, and `exec` gives the rest. -/
def Obligations.StepPerformsTheIssuedCommand : Prop :=
  ∀ (s : State) (bs : List Byte) (i : Instr) (rest : List Input),
    s.input = .command bs :: rest → decode bs = .instr i → step s = exec i { s with input := rest }

/-- Bytes that are no command are refused by name: a reserved opcode (R90) and bytes that run out (U14) by the spec, surplus bytes
by the model's choice (log 6); and with nothing issued there is no step (the model's choice, log 9). -/
def Obligations.StepRefusesWhatIsNoCommand : Prop :=
  ∀ s : State,
    (s.input = [] → step s = .refused .noCommand) ∧
    (∀ (bs : List Byte) (rest : List Input), s.input = .command bs :: rest →
      (∀ op, decode bs = .rejected (.reserved op) → step s = .refused (.reservedOpcode op)) ∧
      (decode bs = .rejected .incomplete → step s = .refused .incompleteCommand) ∧
      (decode bs = .rejected .excess → step s = .refused .excessPayload))

/-- The reset input empties the writer whatever it held, between any two commands. (That construction is a reset input is the
spec's decision D14; that the response is cleared and the input behind the reset kept is the model's choice, logs 2 and 11.) -/
def Obligations.ResetInputEmptiesTheWriter : Prop :=
  ∀ (s : State) (rest : List Input), s.input = .reset :: rest →
    step s = .next { writer := { buffer := [], bitCount := 0, cache := 0, pendingBits := 0 }, input := rest, response := none,
                     config := s.config }

/-- The values after reset (R32; `cache = 0` is the spec's derived clause), and the model's own fields (logs 1, 2, 3). -/
def Obligations.ResetStateIsTheEmptyWriter : Prop :=
  State.reset.writer.buffer = [] ∧ State.reset.writer.bitCount = 0 ∧ State.reset.writer.pendingBits = 0 ∧
  State.reset.writer.cache = 0 ∧ State.reset.input = [] ∧ State.reset.response = none ∧ State.reset.config.bufCap = none

/-- R172: after reset every command is legal at once (its own range permitting); BITCNT returns 0 and DATA the empty sequence;
CLOSE and ALIGN change nothing. For every BUF_CAP. -/
def Obligations.EveryCommandIsLegalAfterReset : Prop :=
  ∀ s : State, s.writer = WriterState.reset →
    (∀ i : Instr, s.RoomFor (bitsWritten i s) → ∃ t, exec i s = .next t) ∧
    exec .bitcnt s = .next (s.answered { status := .ok, result := 0, data := none }) ∧
    exec .data s = .next (s.answered { status := .ok, result := 0, data := some [] }) ∧
    exec .close s = .next (s.done s.writer) ∧
    (∀ k : BitVec 32, k ≠ 0 → exec (.align k) s = .next (s.done s.writer)) ∧
    exec (.align 0) s = .next (s.failed .invalidArgument)

/-! ### Invariants -/

/-- The invariants hold at reset: R26 of the writer, R25 of the buffer. -/
def Obligations.ResetMeetsTheInvariants : Prop := State.reset.Inv

/-- R26: the four invariants hold after reset and after every command, whatever its outcome: (a) `pending_bits < 8`, (b) the
cache is clean, (c) `bit_count = 8*len(buffer) + pending_bits`, (d) `buffer` is append-only. (The clause on `buffer.wf`, that the
cells stand at addresses 0, 1, 2, ..., is the model's own form of the buffer, log 8.) -/
def Obligations.EveryCommandKeepsTheFourInvariants : Prop :=
  WriterState.reset.Inv ∧
  ∀ (i : Instr) (s t : State), s.writer.Inv → exec i s = .next t →
    t.writer.pendingBits.val < 8 ∧
    t.writer.cache.toNat % 2 ^ (8 - t.writer.pendingBits.val) = 0 ∧
    t.writer.bitCount.toNat = 8 * t.writer.buffer.length + t.writer.pendingBits.val ∧
    t.writer.buffer.wf = true ∧
    ∃ pushed : List Byte, t.writer.buffer = s.writer.buffer.pushAll pushed ∧
      t.writer.buffer.bytes = s.writer.buffer.bytes ++ pushed

/-- Every step of the machine, a reset or a command, from any state that meets the invariants gives one that meets them. -/
def Obligations.EveryStepKeepsTheInvariants : Prop :=
  ∀ s t : State, s.Inv → step s = .next t → t.Inv

/-- The stream of R41: its length is `bit_count`, and bit `p` is bit `7 - (p mod 8)` of byte `p div 8` of the buffer, or of the
cache behind the last byte. -/
def Obligations.StreamBitsStandWhereTheyBelong : Prop :=
  ∀ ws : WriterState, ws.Inv →
    ws.stream.length = ws.bitCount.toNat ∧
    (∀ (p : Nat) (b : Byte), ws.buffer.readByte (p / 8) = some b → ws.stream[p]? = some (b.getLsbD (7 - p % 8))) ∧
    (∀ p : Nat, p < ws.bitCount.toNat → ws.buffer.length ≤ p / 8 → ws.stream[p]? = some (ws.cache.getLsbD (7 - p % 8)))

/-- R43: the bits written decide the whole state, whatever widths wrote them: two writers with the same stream are the same. -/
def Obligations.StreamDeterminesTheWriter : Prop :=
  ∀ ws ws' : WriterState, ws.Inv → ws'.Inv → ws.stream = ws'.stream → ws = ws'

/-! ### The generic writes -/

/-- WUB completes, and its transcribed steps (mask, count, merge with its two cases and its loop) are the closed form of R67:
the pending bits and the new bits side by side, cut into whole bytes and a rest. -/
def Obligations.UnsignedWriteIsTheClosedForm : Prop :=
  ∀ (s : State) (value : Word) (width maxWidth : Byte), s.writer.Inv → width.toNat ≤ maxWidth.toNat → width.toNat ≤ 64 →
    s.RoomFor width.toNat →
    exec (.wub value width maxWidth) s = .next (s.done (s.writer.appendBits value.toNat width.toNat))

/-- R42, R67: WUB appends the low `width` bits of the value to the stream, most-significant first: stream bit `bit_count + i` is
`value[width-1-i]`, and every bit written before stays in place. -/
def Obligations.UnsignedWriteAppendsMostSignificantFirst : Prop :=
  ∀ (s : State) (value : Word) (width maxWidth : Byte), s.writer.Inv → width.toNat ≤ maxWidth.toNat → width.toNat ≤ 64 →
    s.RoomFor width.toNat →
    ∃ t, exec (.wub value width maxWidth) s = .next t ∧
      t.writer.stream = s.writer.stream ++ bitsOf value.toNat width.toNat ∧
      (∀ i, i < width.toNat → t.writer.stream[s.writer.bitCount.toNat + i]? = some (value.getLsbD (width.toNat - 1 - i))) ∧
      t.writer.bitCount.toNat = s.writer.bitCount.toNat + width.toNat

/-- R61, through the two commands that take a `max_width`: a width above `max_width` or above 64 fails with nothing written,
whatever the value and the state, and width 0 is a success with nothing written. -/
def Obligations.WidthContractOfTheGenericWrites : Prop :=
  ∀ (s : State) (value : Word) (width maxWidth : Byte),
    ((maxWidth.toNat < width.toNat ∨ 64 < width.toNat) →
      exec (.wub value width maxWidth) s = .next (s.failed .unsupportedWidth) ∧
      exec (.wsb value width maxWidth) s = .next (s.failed .unsupportedWidth)) ∧
    (width = 0 →
      exec (.wub value width maxWidth) s = .next (s.done s.writer) ∧
      exec (.wsb value width maxWidth) s = .next (s.done s.writer)) ∧
    (¬ (maxWidth.toNat < width.toNat ∨ 64 < width.toNat) → ∀ t,
      (exec (.wub value width maxWidth) s = .next t → t.response = some Response.done) ∧
      (exec (.wsb value width maxWidth) s = .next t → t.response = some Response.done))

/-- R64: when `new_bits < 8` the masked bits are shifted left by `8 - new_bits` and OR-ed into the cache, `pending_bits` becomes
`new_bits`, no byte is emitted; the shifted value lies below `2^(8 - pending_bits)`, on bits of the cache that were zero, so the OR
neither loses nor disturbs a bit. -/
def Obligations.BitsThatFitAreMergedIntoTheCache : Prop :=
  ∀ (s : State) (value : Word) (width maxWidth : Byte), 1 ≤ width.toNat → width.toNat ≤ maxWidth.toNat →
    s.writer.pendingBits.val + width.toNat < 8 → s.RoomFor width.toNat →
    let newBits := s.writer.pendingBits.val + width.toNat
    let shifted := (value.toNat % 2 ^ width.toNat) * 2 ^ (8 - newBits)
    exec (.wub value width maxWidth) s = .next (s.done
      { buffer := s.writer.buffer
        bitCount := s.writer.bitCount + BitVec.ofNat 64 width.toNat
        cache := s.writer.cache ||| BitVec.ofNat 8 shifted
        pendingBits := Fin.ofNat 8 newBits }) ∧
    shifted < 2 ^ (8 - s.writer.pendingBits.val) ∧
    (s.writer.CacheClean → s.writer.cache &&& BitVec.ofNat 8 shifted = 0 ∧
      (s.writer.cache ||| BitVec.ofNat 8 shifted).toNat = s.writer.cache.toNat + shifted)

/-- R65 at its first byte and its rest: when `new_bits >= 8` the first byte pushed is the cache with the top `8 - pending_bits` bits
of the masked value OR-ed in, and the `new_bits mod 8` low bits of the value are the new cache, left-justified. (The truncation of
the cache to 8 bits is the spec's decision D27.) -/
def Obligations.BitsThatCompleteAByteAreEmitted : Prop :=
  ∀ (s : State) (value : Word) (width maxWidth : Byte), s.writer.Inv → width.toNat ≤ maxWidth.toNat → width.toNat ≤ 64 →
    8 ≤ s.writer.pendingBits.val + width.toNat → s.RoomFor width.toNat →
    let v := value.toNat % 2 ^ width.toNat
    let free := 8 - s.writer.pendingBits.val
    let rest := (s.writer.pendingBits.val + width.toNat) % 8
    ∃ t, exec (.wub value width maxWidth) s = .next t ∧
      t.writer.buffer.length = s.writer.buffer.length + (s.writer.pendingBits.val + width.toNat) / 8 ∧
      t.writer.buffer.readByte s.writer.buffer.length =
        some (s.writer.cache ||| BitVec.ofNat 8 (v / 2 ^ (width.toNat - free))) ∧
      (∀ j, 1 ≤ j → j < (s.writer.pendingBits.val + width.toNat) / 8 →
        t.writer.buffer.readByte (s.writer.buffer.length + j) =
          some (BitVec.ofNat 8 (v / 2 ^ (width.toNat - free - 8 * j)))) ∧
      t.writer.cache = BitVec.ofNat 8 (v * 2 ^ (8 - rest)) ∧
      t.writer.pendingBits.val = rest

/-- R63: `bit_count` grows by `width`, whatever the value and the merge case, in every width-taking writer whose validation
passes. -/
def Obligations.CounterGrowsByTheWidth : Prop :=
  ∀ (i : Instr) (width : Byte) (s t : State),
    (∃ v m, i = .wub v width m) ∨ (∃ v m, i = .wsb v width m) ∨ (∃ v, i = .wbool v width) ∨
      (∃ v, i = .wu8 v width) ∨ (∃ v, i = .wu16 v width) ∨ (∃ v, i = .wu32 v width) ∨ (∃ v, i = .wu64 v width) ∨
      (∃ v, i = .wi8 v width) ∨ (∃ v, i = .wi16 v width) ∨ (∃ v, i = .wi32 v width) ∨ (∃ v, i = .wi64 v width) →
    errorOf i = none → exec i s = .next t → t.writer.bitCount.toNat = s.writer.bitCount.toNat + width.toNat

/-- R72: an excess in the value is masked away in silence, an excess in the width is a hard error. The masking law: a value and
its low `width` bits have the same outcome, in WUB and the unsigned typed writers; in the signed writers the law is of the folded
pattern and not of the signed value, as -200 and 56 at width 8 show. -/
def Obligations.ValuesAreMaskedAndWidthsAreChecked : Prop :=
  (∀ (s : State) (w : Byte),
    (∀ (v : Word) (m : Byte), exec (.wub v w m) s = exec (.wub (BitVec.ofNat 64 (v.toNat % 2 ^ w.toNat)) w m) s) ∧
    (∀ v : BitVec 8, exec (.wu8 v w) s = exec (.wu8 (BitVec.ofNat 8 (v.toNat % 2 ^ w.toNat)) w) s) ∧
    (∀ v : BitVec 16, exec (.wu16 v w) s = exec (.wu16 (BitVec.ofNat 16 (v.toNat % 2 ^ w.toNat)) w) s) ∧
    (∀ v : BitVec 32, exec (.wu32 v w) s = exec (.wu32 (BitVec.ofNat 32 (v.toNat % 2 ^ w.toNat)) w) s) ∧
    (∀ v : BitVec 64, exec (.wu64 v w) s = exec (.wu64 (BitVec.ofNat 64 (v.toNat % 2 ^ w.toNat)) w) s) ∧
    (∀ v : Bool, exec (.wbool v w) s = exec (.wbool (v && decide (1 ≤ w.toNat)) w) s)) ∧
  (∀ (s : State) (w : Byte), 1 ≤ w.toNat →
    (∀ (v v' : Word) (m : Byte), signedPattern v w.toNat = signedPattern v' w.toNat → exec (.wsb v w m) s = exec (.wsb v' w m) s) ∧
    (∀ v v' : BitVec 8, signedPattern (v.signExtend 64) w.toNat = signedPattern (v'.signExtend 64) w.toNat →
      exec (.wi8 v w) s = exec (.wi8 v' w) s) ∧
    (∀ v v' : BitVec 16, signedPattern (v.signExtend 64) w.toNat = signedPattern (v'.signExtend 64) w.toNat →
      exec (.wi16 v w) s = exec (.wi16 v' w) s) ∧
    (∀ v v' : BitVec 32, signedPattern (v.signExtend 64) w.toNat = signedPattern (v'.signExtend 64) w.toNat →
      exec (.wi32 v w) s = exec (.wi32 v' w) s) ∧
    (∀ v v' : BitVec 64, signedPattern v w.toNat = signedPattern v' w.toNat → exec (.wi64 v w) s = exec (.wi64 v' w) s)) ∧
  (BitVec.ofInt 64 (-200)).toNat % 2 ^ 8 = 56 ∧
  exec (.wsb (BitVec.ofInt 64 (-200)) 8 64) State.reset ≠ exec (.wsb 56 8 64) State.reset ∧
  (∀ (s : State) (v : Word) (w m : Byte), m.toNat < w.toNat ∨ 64 < w.toNat →
    exec (.wub v w m) s = .next (s.failed .unsupportedWidth) ∧ exec (.wsb v w m) s = .next (s.failed .unsupportedWidth))

/-- WSB completes, and what it appends is the pattern of R70: the low `width` bits with the top one forced to 1 when the value is
negative and the width is not 64. For a value in the range of `width` bits that is its ordinary two's complement. (That the
mechanism binds out of range is the spec's decision D19.) -/
def Obligations.SignedWriteAppendsTheFoldedPattern : Prop :=
  (∀ (s : State) (value : Word) (width maxWidth : Byte), s.writer.Inv → width.toNat ≤ maxWidth.toNat → width.toNat ≤ 64 →
    s.RoomFor width.toNat →
    exec (.wsb value width maxWidth) s = .next (s.done (s.writer.appendBits (signedPattern value width.toNat) width.toNat))) ∧
  (∀ (value : Word) (w : Nat), 1 ≤ w → w ≤ 64 → -(2 : Int) ^ (w - 1) ≤ value.toInt → value.toInt < (2 : Int) ^ (w - 1) →
    (signedPattern value w : Int) = value.toInt % 2 ^ w)

/-- R43: two writes side by side are one write of the two values side by side. -/
def Obligations.TwoWritesAreOneWiderWrite : Prop :=
  ∀ (s : State) (v v' : Word) (m n : Byte), s.writer.Inv → m.toNat + n.toNat ≤ 64 → s.RoomFor (m.toNat + n.toNat) →
    ∃ t, performAll [.wub v m 64, .wub v' n 64] s = .next t ∧
      exec (.wub (BitVec.ofNat 64 (v.toNat % 2 ^ m.toNat * 2 ^ n.toNat + v'.toNat % 2 ^ n.toNat)) (m + n) 64) s = .next t

/-! ### The typed writers -/

/-- R100: each typed writer is the generic write with `max_width` fixed to its native size: the unsigned ones and the boolean on
the zero-extended value, the signed ones on the sign-extended value; a width above the native size is `UnsupportedWidth` with the
state unchanged; width 0 is a success that changes nothing. -/
def Obligations.TypedWritersAreGenericWritesOfTheirSize : Prop :=
  ∀ (s : State) (w : Byte),
    (∀ v : Bool, exec (.wbool v w) s = exec (.wub (if v then 1 else 0) w 1) s) ∧
    (∀ v : BitVec 8, exec (.wu8 v w) s = exec (.wub (v.setWidth 64) w 8) s) ∧
    (∀ v : BitVec 16, exec (.wu16 v w) s = exec (.wub (v.setWidth 64) w 16) s) ∧
    (∀ v : BitVec 32, exec (.wu32 v w) s = exec (.wub (v.setWidth 64) w 32) s) ∧
    (∀ v : BitVec 64, exec (.wu64 v w) s = exec (.wub v w 64) s) ∧
    (∀ v : BitVec 8, exec (.wi8 v w) s = exec (.wsb (v.signExtend 64) w 8) s) ∧
    (∀ v : BitVec 16, exec (.wi16 v w) s = exec (.wsb (v.signExtend 64) w 16) s) ∧
    (∀ v : BitVec 32, exec (.wi32 v w) s = exec (.wsb (v.signExtend 64) w 32) s) ∧
    (∀ v : BitVec 64, exec (.wi64 v w) s = exec (.wsb v w 64) s) ∧
    (1 < w.toNat → ∀ v, exec (.wbool v w) s = .next (s.failed .unsupportedWidth)) ∧
    (8 < w.toNat → ∀ v, exec (.wu8 v w) s = .next (s.failed .unsupportedWidth) ∧
      exec (.wi8 v w) s = .next (s.failed .unsupportedWidth)) ∧
    (16 < w.toNat → ∀ v, exec (.wu16 v w) s = .next (s.failed .unsupportedWidth) ∧
      exec (.wi16 v w) s = .next (s.failed .unsupportedWidth)) ∧
    (32 < w.toNat → ∀ v, exec (.wu32 v w) s = .next (s.failed .unsupportedWidth) ∧
      exec (.wi32 v w) s = .next (s.failed .unsupportedWidth)) ∧
    (64 < w.toNat → ∀ v, exec (.wu64 v w) s = .next (s.failed .unsupportedWidth) ∧
      exec (.wi64 v w) s = .next (s.failed .unsupportedWidth)) ∧
    (w = 0 → (∀ v, exec (.wbool v w) s = .next (s.done s.writer)) ∧
      (∀ v, exec (.wu8 v w) s = .next (s.done s.writer) ∧ exec (.wi8 v w) s = .next (s.done s.writer)) ∧
      (∀ v, exec (.wu16 v w) s = .next (s.done s.writer) ∧ exec (.wi16 v w) s = .next (s.done s.writer)) ∧
      (∀ v, exec (.wu32 v w) s = .next (s.done s.writer) ∧ exec (.wi32 v w) s = .next (s.done s.writer)) ∧
      (∀ v, exec (.wu64 v w) s = .next (s.done s.writer) ∧ exec (.wi64 v w) s = .next (s.done s.writer)))

/-- WBOOL, WU8, WU16, WU32, WU64 complete at every width up to their native size, and append the low `width` bits of their value
(R101 to R105). -/
def Obligations.UnsignedTypedWritersAppendTheirBits : Prop :=
  ∀ (s : State) (w : Byte), s.writer.Inv → s.RoomFor w.toNat →
    (w.toNat ≤ 1 → ∀ v : Bool, exec (.wbool v w) s = .next (s.done (s.writer.appendBits v.toNat w.toNat))) ∧
    (w.toNat ≤ 8 → ∀ v : BitVec 8, exec (.wu8 v w) s = .next (s.done (s.writer.appendBits v.toNat w.toNat))) ∧
    (w.toNat ≤ 16 → ∀ v : BitVec 16, exec (.wu16 v w) s = .next (s.done (s.writer.appendBits v.toNat w.toNat))) ∧
    (w.toNat ≤ 32 → ∀ v : BitVec 32, exec (.wu32 v w) s = .next (s.done (s.writer.appendBits v.toNat w.toNat))) ∧
    (w.toNat ≤ 64 → ∀ v : BitVec 64, exec (.wu64 v w) s = .next (s.done (s.writer.appendBits v.toNat w.toNat)))

/-- WI8, WI16, WI32, WI64 complete at every width up to their native size, and append the pattern of R70 of their sign-extended
value (R106 to R109; the sign is bit N-1 of the operand, the spec's decision D7). -/
def Obligations.SignedTypedWritersAppendTheirPattern : Prop :=
  ∀ (s : State) (w : Byte), s.writer.Inv → s.RoomFor w.toNat →
    (w.toNat ≤ 8 → ∀ v : BitVec 8, exec (.wi8 v w) s =
      .next (s.done (s.writer.appendBits (signedPattern (v.signExtend 64) w.toNat) w.toNat))) ∧
    (w.toNat ≤ 16 → ∀ v : BitVec 16, exec (.wi16 v w) s =
      .next (s.done (s.writer.appendBits (signedPattern (v.signExtend 64) w.toNat) w.toNat))) ∧
    (w.toNat ≤ 32 → ∀ v : BitVec 32, exec (.wi32 v w) s =
      .next (s.done (s.writer.appendBits (signedPattern (v.signExtend 64) w.toNat) w.toNat))) ∧
    (w.toNat ≤ 64 → ∀ v : BitVec 64, exec (.wi64 v w) s =
      .next (s.done (s.writer.appendBits (signedPattern v w.toNat) w.toNat)))

/-- R110: a signed and an unsigned writer of the same size have the same outcome when the value is not negative, and at the native
width. -/
def Obligations.SignedAndUnsignedAgreeWhereNothingIsFolded : Prop :=
  ∀ (s : State) (w : Byte),
    (∀ v : BitVec 8, 0 ≤ v.toInt ∨ w = 8 → exec (.wi8 v w) s = exec (.wu8 v w) s) ∧
    (∀ v : BitVec 16, 0 ≤ v.toInt ∨ w = 16 → exec (.wi16 v w) s = exec (.wu16 v w) s) ∧
    (∀ v : BitVec 32, 0 ≤ v.toInt ∨ w = 32 → exec (.wi32 v w) s = exec (.wu32 v w) s) ∧
    (∀ v : BitVec 64, 0 ≤ v.toInt ∨ w = 64 → exec (.wi64 v w) s = exec (.wu64 v w) s)

/-! ### Errors, refusals, responses -/

/-- R150: an error is the outcome of one command, names its kind, leaves the writer exactly as it was, and is decided by the
operands alone (`errorOf`, the table of R153, reads no state); a command without that error never answers one. -/
def Obligations.ErrorsAreDecidedByTheOperandsAlone : Prop :=
  ∀ (i : Instr) (s : State),
    (∀ e, errorOf i = some e → ∃ t, exec i s = .next t ∧ t.response = some (Response.failed e) ∧ t.writer = s.writer ∧
      t.input = s.input ∧ t.config = s.config) ∧
    (errorOf i = none → ∀ t, exec i s = .next t → ∃ r, t.response = some r ∧ r.status = .ok)

/-- R155, R156: a failed command leaves no trace: every command, the same one included, has the outcome it would have had without
the failure. -/
def Obligations.FailedCommandsLeaveNoTrace : Prop :=
  ∀ (i j : Instr) (s t : State), errorOf i ≠ none → exec i s = .next t → exec j t = exec j s

/-- A command whose operands are valid completes exactly when its bits are in range, and otherwise is refused whole, the counter
judged first. (The refusals are the spec's decisions D10 and D11, logs 3 and 4; their order is the model's choice, log 10.) -/
def Obligations.ValidCommandsCompleteExactlyInRange : Prop :=
  ∀ (i : Instr) (s : State), errorOf i = none →
    ((∃ t, exec i s = .next t) ↔ s.RoomFor (bitsWritten i s)) ∧
    (2 ^ 64 - 1 < s.writer.bitCount.toNat + bitsWritten i s → exec i s = .refused .bitCountOverflow) ∧
    (∀ cap, s.config.bufCap = some cap → s.writer.bitCount.toNat + bitsWritten i s ≤ 2 ^ 64 - 1 →
      0 < (s.writer.pendingBits.val + bitsWritten i s) / 8 →
      cap < s.writer.buffer.length + (s.writer.pendingBits.val + bitsWritten i s) / 8 →
      exec i s = .refused .bufferFull)

/-- R154: validation comes before the range refusals, and no command has any other outcome: an error or a success as a next
state, or one of the two range refusals. -/
def Obligations.EveryCommandHasOneOfFourOutcomes : Prop :=
  ∀ (i : Instr) (s : State),
    (∀ e, errorOf i = some e → exec i s = .next (s.failed e)) ∧
    (errorOf i = none → (∃ t, exec i s = .next t) ∨ exec i s = .refused .bitCountOverflow ∨ exec i s = .refused .bufferFull)

/-- The response of R83: every completed command has one; its status code is 0, 1 or 2, never 3; `result` is `bit_count` for BITCNT
and zero for every other command and every error; bytes come with DATA alone. (The numbers are the spec's decision D6.) -/
def Obligations.ResponsesHaveTheSpecsFormat : Prop :=
  ∀ (i : Instr) (s t : State), exec i s = .next t →
    ∃ r, t.response = some r ∧
      r.status.code = (match errorOf i with | none => 0 | some .unsupportedWidth => 1 | some .invalidArgument => 2) ∧
      r.status.code ≠ 3 ∧
      r.result = (if i = .bitcnt then s.writer.bitCount else 0) ∧
      r.data = (if i = .data then some s.writer.buffer.bytes else none)

/-! ### SKIP, ALIGN, WBYTES, CLOSE -/

/-- R122: SKIP completes in range; with `t = pending_bits + n`, below 8 it only raises `pending_bits`; otherwise it pushes the cache
and `(t div 8) - 1` zero bytes, and leaves an empty cache with `t mod 8` zero bits pending. -/
def Obligations.SkipPushesTheCacheAndZeroBytes : Prop :=
  ∀ (s : State) (n : Word), s.writer.Inv → s.RoomFor n.toNat →
    let t := s.writer.pendingBits.val + n.toNat
    exec (.skip n) s = .next (s.done
      { buffer := if t < 8 then s.writer.buffer else s.writer.buffer.pushAll (s.writer.cache :: List.replicate (t / 8 - 1) 0)
        bitCount := s.writer.bitCount + n
        cache := if t < 8 then s.writer.cache else 0
        pendingBits := Fin.ofNat 8 t })

/-- The source's law: `skip(n)` has the outcome of `n` one-bit zero writes, for every `n` in range. -/
def Obligations.SkipIsThatManyOneBitWrites : Prop :=
  ∀ (s : State) (n : Word), s.writer.Inv → s.RoomFor n.toNat →
    ∃ t t', exec (.skip n) s = .next t ∧ performAll (List.replicate n.toNat (.wub 0 1 64)) s = .next t' ∧ t'.writer = t.writer

/-- R123: ALIGN 0 is `InvalidArgument`; any other ALIGN is SKIP of `(8k - bit_count mod 8k) mod 8k` bits and completes in range with
`bit_count` a multiple of `8k`; ALIGN alone raises `InvalidArgument`, and raises nothing else. -/
def Obligations.AlignPadsWithTheComputedSkip : Prop :=
  ∀ s : State,
    exec (.align 0) s = .next (s.failed .invalidArgument) ∧
    (∀ k : BitVec 32, k ≠ 0 →
      exec (.align k) s = exec (.skip (BitVec.ofNat 64 (padTo s.writer.bitCount.toNat k.toNat))) s ∧
      (s.writer.Inv → s.RoomFor (padTo s.writer.bitCount.toNat k.toNat) →
        exec (.align k) s = .next (s.done (s.writer.appendBits 0 (padTo s.writer.bitCount.toNat k.toNat))) ∧
        (s.writer.bitCount.toNat + padTo s.writer.bitCount.toNat k.toNat) % (8 * k.toNat) = 0)) ∧
    (∀ (i : Instr) (t : State), exec i s = .next t → t.response = some (Response.failed .invalidArgument) → i = .align 0) ∧
    (∀ (k : BitVec 32) (t : State), exec (.align k) s = .next t → t.response ≠ some (Response.failed .unsupportedWidth))

/-- R124: the pad is the least number of bits that reaches the boundary, and is below it; the product `8 * alignment_bytes` is
exact (the spec's decision D12). -/
def Obligations.ThePadIsTheLeastThatReachesTheBoundary : Prop :=
  ∀ (bitCount : Word) (k : BitVec 32), k ≠ 0 →
    let pad := bitsToSkip bitCount k
    pad < 8 * k.toNat ∧ (bitCount.toNat + pad) % (8 * k.toNat) = 0 ∧
    ∀ p, (bitCount.toNat + p) % (8 * k.toNat) = 0 → pad ≤ p

/-- R125: a successful ALIGN ends aligned to its boundary with nothing pending, and on a state already aligned to it is a success
that changes nothing. -/
def Obligations.AlignEndsOnItsBoundary : Prop :=
  ∀ (s : State) (k : BitVec 32), s.writer.Inv → k ≠ 0 →
    (∀ t, exec (.align k) s = .next t →
      t.writer.bitCount.toNat % (8 * k.toNat) = 0 ∧ t.writer.pendingBits = 0 ∧ t.writer.cache = 0) ∧
    (s.writer.bitCount.toNat % (8 * k.toNat) = 0 → exec (.align k) s = .next (s.done s.writer))

/-- R129: WBYTES completes in range and appends its bytes to the stream, each most-significant bit first, whichever path runs. -/
def Obligations.WriteBytesAppendsItsBytesOnBothPaths : Prop :=
  ∀ (s : State) (bs : List Byte), s.writer.Inv → s.RoomFor (8 * bs.length) →
    exec (.wbytes bs) s = .next (s.done (s.writer.appendBits (numberOfBytes bs) (8 * bs.length))) ∧
    (s.writer.appendBits (numberOfBytes bs) (8 * bs.length)).stream = s.writer.stream ++ bs.flatMap bitsOfByte ∧
    (s.writer.appendBits (numberOfBytes bs) (8 * bs.length)).pendingBits = s.writer.pendingBits

/-- R127: on a byte-aligned state the bytes go to `buffer` unchanged and in order, `bit_count` grows by `8*len`, and `cache` and
`pending_bits` stay as they are, which by R26 is 0x00 and 0. -/
def Obligations.WriteBytesFastPathCopiesTheBytes : Prop :=
  ∀ (s : State) (bs : List Byte), s.writer.pendingBits = 0 → s.RoomFor (8 * bs.length) →
    exec (.wbytes bs) s = .next (s.done
      { buffer := s.writer.buffer.pushAll bs
        bitCount := s.writer.bitCount + BitVec.ofNat 64 (8 * bs.length)
        cache := s.writer.cache
        pendingBits := s.writer.pendingBits }) ∧
    (s.writer.Inv → s.writer.cache = 0)

/-- R128, one byte of the slow path: with `k > 0` bits pending the byte pushed is `cache | (b >> k)`, the new cache is
`(b << (8 - k))[7:0]`, and `k` bits stay pending. -/
def Obligations.WriteBytesSlowPathShiftsEachByte : Prop :=
  ∀ (s : State) (b : Byte), s.writer.pendingBits ≠ 0 → s.RoomFor 8 →
    exec (.wbytes [b]) s = .next (s.done
      { buffer := s.writer.buffer.push (s.writer.cache ||| b >>> s.writer.pendingBits.val)
        bitCount := s.writer.bitCount + 8
        cache := b <<< (8 - s.writer.pendingBits.val)
        pendingBits := s.writer.pendingBits })

/-- The source's law: WBYTES has the outcome of writing each byte by `WU8 b, 8`, from aligned and unaligned states alike. -/
def Obligations.WriteBytesIsThatManyByteWrites : Prop :=
  ∀ (s : State) (bs : List Byte), s.writer.Inv → s.RoomFor (8 * bs.length) →
    ∃ t t', exec (.wbytes bs) s = .next t ∧ performAll (bs.map fun b => .wu8 b 8) s = .next t' ∧ t'.writer = t.writer

/-- R130: CLOSE is `ALIGN 1`; on a byte-aligned state it changes nothing; otherwise it pushes the cache as it stands, counts the
`8 - pending_bits` zero bits and empties the cache; it has no error. -/
def Obligations.CloseFlushesTheCache : Prop :=
  ∀ s : State,
    exec .close s = exec (.align 1) s ∧
    (s.writer.Inv → s.writer.pendingBits = 0 → exec .close s = .next (s.done s.writer)) ∧
    (s.writer.Inv → s.writer.pendingBits ≠ 0 → s.RoomFor (8 - s.writer.pendingBits.val) →
      exec .close s = .next (s.done
        { buffer := s.writer.buffer.push s.writer.cache
          bitCount := s.writer.bitCount + BitVec.ofNat 64 (8 - s.writer.pendingBits.val)
          cache := 0
          pendingBits := 0 })) ∧
    (∀ t, exec .close s = .next t → t.response = some Response.done)

/-- R131: after CLOSE nothing is pending and DATA is complete, and a second CLOSE changes nothing at all. -/
def Obligations.CloseIsIdempotent : Prop :=
  ∀ s t : State, s.writer.Inv → exec .close s = .next t →
    t.writer.pendingBits = 0 ∧ t.writer.cache = 0 ∧ t.writer.bitCount.toNat = 8 * t.writer.buffer.length ∧
    t.writer.bitCount.toNat ≤ s.writer.bitCount.toNat + 7 ∧ t.writer.buffer.length ≤ s.writer.buffer.length + 1 ∧
    exec .close t = .next t

/-- R54: after CLOSE or a successful ALIGN the buffer holds every bit ever written, followed by the zero padding only. -/
def Obligations.FlushMakesTheBufferComplete : Prop :=
  ∀ (i : Instr) (s t : State), s.writer.Inv → i = .close ∨ (∃ k : BitVec 32, k ≠ 0 ∧ i = .align k) → exec i s = .next t →
    t.writer.buffer.bytes.flatMap bitsOfByte = s.writer.stream ++ List.replicate (bitsWritten i s) false

/-! ### The accessors -/

/-- R140: BITCNT answers OK with `bit_count`, always, and writes no state. -/
def Obligations.BitcntReturnsTheCounter : Prop :=
  ∀ s : State, exec .bitcnt s = .next
    { writer := s.writer, input := s.input, config := s.config,
      response := some { status := .ok, result := s.writer.bitCount, data := none } }

/-- R142: DATA answers OK, always, and writes no state; its bytes are those `MemRead(0, len(buffer))` gives, all of them and none of
the pending bits. (That the answer is a snapshot is the spec's decision D17.) -/
def Obligations.DataReturnsTheWholeBuffer : Prop :=
  ∀ s : State, s.writer.buffer.wf = true →
    ∃ bs : List Byte, s.writer.buffer.read 0 s.writer.buffer.length = some bs ∧ bs.length = s.writer.buffer.length ∧
      (∀ a, s.writer.buffer.readByte a = bs[a]?) ∧
      exec .data s = .next
        { writer := s.writer, input := s.input, config := s.config,
          response := some { status := .ok, result := 0, data := some bs } }

/-- R141: at every observation point BITCNT is `8 * len(DATA) + pending_bits` with `pending_bits <= 7`, and when BITCNT is a multiple
of 8, DATA is complete. -/
def Obligations.AccessorsTellThePendingBits : Prop :=
  ∀ s : State, s.writer.Inv →
    ∃ (n : Word) (bs : List Byte),
      exec .bitcnt s = .next (s.answered { status := .ok, result := n, data := none }) ∧
      exec .data s = .next (s.answered { status := .ok, result := 0, data := some bs }) ∧
      n.toNat = 8 * bs.length + s.writer.pendingBits.val ∧ s.writer.pendingBits.val ≤ 7 ∧
      n.toNat - 8 * bs.length = s.writer.pendingBits.val ∧
      (n.toNat % 8 = 0 → bs.flatMap bitsOfByte = s.writer.stream)

/-! ### Frames -/

/-- What a command leaves as it was: the caller's other input and BUF_CAP; every byte of the buffer but those it pushes, which stand
from address `len(buffer)` on, as many as `(pending_bits + n) div 8` for the `n` bits it writes (R44, R55). A failed command and an
accessor write no byte, and change no register of the writer. -/
def Obligations.CommandsLeaveTheRestAsItWas : Prop :=
  ∀ (i : Instr) (s t : State), s.writer.Inv → exec i s = .next t →
    t.input = s.input ∧ t.config = s.config ∧
    (errorOf i = none → ∀ a, a < s.writer.buffer.length ∨
        s.writer.buffer.length + (s.writer.pendingBits.val + bitsWritten i s) / 8 ≤ a →
      t.writer.buffer.readByte a = s.writer.buffer.readByte a) ∧
    (errorOf i ≠ none ∨ i = .bitcnt ∨ i = .data → t.writer = s.writer)

/-- Which registers the structural commands leave: WBYTES keeps `pending_bits`, on its fast path the cache too (R29, R129); a
command that pushes no byte leaves the buffer as it is (R44). -/
def Obligations.RegistersTheCommandsKeep : Prop :=
  ∀ (s t : State), s.writer.Inv →
    (∀ bs, exec (.wbytes bs) s = .next t → t.writer.pendingBits = s.writer.pendingBits ∧
      (s.writer.pendingBits = 0 → t.writer.cache = s.writer.cache)) ∧
    (∀ i, exec i s = .next t → errorOf i = none → s.writer.pendingBits.val + bitsWritten i s < 8 →
      t.writer.buffer = s.writer.buffer)

/-- R47: reading has no side effect and may be repeated with the same answer; a command that writes a bit changes the writer each
time; and the writes the source names as no-ops leave it unchanged: width 0, SKIP 0, WBYTES of no bytes, ALIGN on its boundary,
CLOSE on a byte-aligned state. -/
def Obligations.ReadsAndNamedNoOpsChangeNothing : Prop :=
  ∀ s : State, s.writer.Inv →
    (∀ i, i = .bitcnt ∨ i = .data → ∃ t, exec i s = .next t ∧ t.writer = s.writer ∧ exec i t = .next t) ∧
    (∀ i t, errorOf i = none → bitsWritten i s ≠ 0 → exec i s = .next t → t.writer ≠ s.writer) ∧
    (∀ v m, exec (.wub v 0 m) s = .next (s.done s.writer)) ∧ (∀ v m, exec (.wsb v 0 m) s = .next (s.done s.writer)) ∧
    (∀ v, exec (.wbool v 0) s = .next (s.done s.writer)) ∧
    (∀ v, exec (.wu8 v 0) s = .next (s.done s.writer)) ∧ (∀ v, exec (.wu16 v 0) s = .next (s.done s.writer)) ∧
    (∀ v, exec (.wu32 v 0) s = .next (s.done s.writer)) ∧ (∀ v, exec (.wu64 v 0) s = .next (s.done s.writer)) ∧
    (∀ v, exec (.wi8 v 0) s = .next (s.done s.writer)) ∧ (∀ v, exec (.wi16 v 0) s = .next (s.done s.writer)) ∧
    (∀ v, exec (.wi32 v 0) s = .next (s.done s.writer)) ∧ (∀ v, exec (.wi64 v 0) s = .next (s.done s.writer)) ∧
    exec (.skip 0) s = .next (s.done s.writer) ∧
    exec (.wbytes []) s = .next (s.done s.writer) ∧
    (∀ k : BitVec 32, k ≠ 0 → s.writer.bitCount.toNat % (8 * k.toNat) = 0 → exec (.align k) s = .next (s.done s.writer)) ∧
    (s.writer.pendingBits = 0 → exec .close s = .next (s.done s.writer))

/-- R28: byte-aligned is `bit_count mod 8 = 0`; it holds after reset, after CLOSE and after every successful ALIGN, and WBYTES leaves
it as it was. -/
def Obligations.ByteAlignedFollowsTheCounter : Prop :=
  byteAligned WriterState.reset = true ∧
  ∀ s : State, s.writer.Inv →
    (byteAligned s.writer = true ↔ s.writer.bitCount.toNat % 8 = 0) ∧
    (∀ t, exec .close s = .next t → byteAligned t.writer = true) ∧
    (∀ (k : BitVec 32) (t : State), k ≠ 0 → exec (.align k) s = .next t → byteAligned t.writer = true) ∧
    (∀ (bs : List Byte) (t : State), exec (.wbytes bs) s = .next t → byteAligned t.writer = byteAligned s.writer)
end

