-- ==== Sys2Proof/Laws/State.lean ====
section
/-! SUPPORT. One lemma per field per named update of the state, so that no proof unfolds a record update. -/

namespace Sys2Proof.Machine

/-! ### The writer's updates -/

@[simp] theorem pushByte_buffer (b : Byte) (ws : WriterState) : (ws.pushByte b).buffer = ws.buffer.push b := rfl
@[simp] theorem pushByte_bitCount (b : Byte) (ws : WriterState) : (ws.pushByte b).bitCount = ws.bitCount := rfl
@[simp] theorem pushByte_cache (b : Byte) (ws : WriterState) : (ws.pushByte b).cache = ws.cache := rfl
@[simp] theorem pushByte_pendingBits (b : Byte) (ws : WriterState) : (ws.pushByte b).pendingBits = ws.pendingBits := rfl

@[simp] theorem countBits_buffer (n : Nat) (ws : WriterState) : (ws.countBits n).buffer = ws.buffer := rfl
@[simp] theorem countBits_bitCount (n : Nat) (ws : WriterState) :
    (ws.countBits n).bitCount = ws.bitCount + BitVec.ofNat 64 n := rfl
@[simp] theorem countBits_cache (n : Nat) (ws : WriterState) : (ws.countBits n).cache = ws.cache := rfl
@[simp] theorem countBits_pendingBits (n : Nat) (ws : WriterState) : (ws.countBits n).pendingBits = ws.pendingBits := rfl

@[simp] theorem appendAligned_buffer (bs : List Byte) (ws : WriterState) :
    (appendAligned bs ws).buffer = ws.buffer.pushAll bs := rfl
@[simp] theorem appendAligned_bitCount (bs : List Byte) (ws : WriterState) :
    (appendAligned bs ws).bitCount = ws.bitCount + BitVec.ofNat 64 (8 * bs.length) := rfl
@[simp] theorem appendAligned_cache (bs : List Byte) (ws : WriterState) : (appendAligned bs ws).cache = ws.cache := rfl
@[simp] theorem appendAligned_pendingBits (bs : List Byte) (ws : WriterState) :
    (appendAligned bs ws).pendingBits = ws.pendingBits := rfl

@[simp] theorem reset_buffer : WriterState.reset.buffer = [] := rfl
@[simp] theorem reset_bitCount : WriterState.reset.bitCount = 0 := rfl
@[simp] theorem reset_cache : WriterState.reset.cache = 0 := rfl
@[simp] theorem reset_pendingBits : WriterState.reset.pendingBits = 0 := rfl

/-! ### The machine's updates -/

@[simp] theorem done_writer (s : State) (ws : WriterState) : (s.done ws).writer = ws := rfl
@[simp] theorem done_input (s : State) (ws : WriterState) : (s.done ws).input = s.input := rfl
@[simp] theorem done_response (s : State) (ws : WriterState) : (s.done ws).response = some Response.done := rfl
@[simp] theorem done_config (s : State) (ws : WriterState) : (s.done ws).config = s.config := rfl

@[simp] theorem failed_writer (s : State) (e : ErrorKind) : (s.failed e).writer = s.writer := rfl
@[simp] theorem failed_input (s : State) (e : ErrorKind) : (s.failed e).input = s.input := rfl
@[simp] theorem failed_response (s : State) (e : ErrorKind) : (s.failed e).response = some (Response.failed e) := rfl
@[simp] theorem failed_config (s : State) (e : ErrorKind) : (s.failed e).config = s.config := rfl

@[simp] theorem answered_writer (s : State) (r : Response) : (s.answered r).writer = s.writer := rfl
@[simp] theorem answered_input (s : State) (r : Response) : (s.answered r).input = s.input := rfl
@[simp] theorem answered_response (s : State) (r : Response) : (s.answered r).response = some r := rfl
@[simp] theorem answered_config (s : State) (r : Response) : (s.answered r).config = s.config := rfl

@[simp] theorem applyReset_writer (s : State) : s.applyReset.writer = WriterState.reset := rfl
@[simp] theorem applyReset_input (s : State) : s.applyReset.input = s.input := rfl
@[simp] theorem applyReset_response (s : State) : s.applyReset.response = none := rfl
@[simp] theorem applyReset_config (s : State) : s.applyReset.config = s.config := rfl

@[simp] theorem withFetchWord_writer (s : State) (nbits w : Nat) : (s.withFetchWord nbits w).writer = s.writer := rfl
@[simp] theorem withFetchWord_input (s : State) (nbits w : Nat) :
    (s.withFetchWord nbits w).input = .command (wordBytes nbits w) :: s.input := rfl
@[simp] theorem withFetchWord_response (s : State) (nbits w : Nat) :
    (s.withFetchWord nbits w).response = s.response := rfl
@[simp] theorem withFetchWord_config (s : State) (nbits w : Nat) : (s.withFetchWord nbits w).config = s.config := rfl

/-! ### Two writers with the same four pieces are the same writer (R20) -/

theorem writer_ext {ws ws' : WriterState} (hb : ws.buffer = ws'.buffer) (hn : ws.bitCount = ws'.bitCount)
    (hc : ws.cache = ws'.cache) (hp : ws.pendingBits = ws'.pendingBits) : ws = ws' := by
  cases ws; cases ws'; simp_all

end Sys2Proof.Machine
end

