-- ==== Sys2Proof/Laws/Memory.lean ====
section
/-! SUPPORT. The laws of the buffer: a push appends one byte, keeps the canonical form, and leaves every byte
already there as it was (spec/10_state.md R24). -/

namespace Sys2Proof.Machine

@[simp] theorem push_length (m : Memory) (b : Byte) : (m.push b).length = m.length + 1 := by
  simp [Memory.push]

@[simp] theorem push_bytes (m : Memory) (b : Byte) : (m.push b).bytes = m.bytes ++ [b] := by
  simp [Memory.push, Memory.bytes]

@[simp] theorem bytes_length (m : Memory) : m.bytes.length = m.length := by
  simp [Memory.bytes]

theorem wf_iff (m : Memory) : m.wf = true ↔ m.map Prod.fst = List.range m.length := by
  simp [Memory.wf]

theorem wf_nil : Memory.wf [] = true := rfl

theorem push_wf {m : Memory} (b : Byte) (h : m.wf = true) : (m.push b).wf = true := by
  rw [wf_iff] at *
  simp [Memory.push, h, List.range_succ]

@[simp] theorem pushAll_nil (m : Memory) : m.pushAll [] = m := rfl

theorem pushAll_cons (m : Memory) (b : Byte) (bs : List Byte) : m.pushAll (b :: bs) = (m.push b).pushAll bs := rfl

theorem pushAll_append (m : Memory) (bs cs : List Byte) : m.pushAll (bs ++ cs) = (m.pushAll bs).pushAll cs := by
  simp [Memory.pushAll, List.foldl_append]

@[simp] theorem pushAll_length (m : Memory) (bs : List Byte) : (m.pushAll bs).length = m.length + bs.length := by
  induction bs generalizing m with
  | nil => rfl
  | cons b bs ih => rw [pushAll_cons, ih, push_length, List.length_cons]; omega

@[simp] theorem pushAll_bytes (m : Memory) (bs : List Byte) : (m.pushAll bs).bytes = m.bytes ++ bs := by
  induction bs generalizing m with
  | nil => simp
  | cons b bs ih => rw [pushAll_cons, ih, push_bytes, List.append_assoc, List.singleton_append]

theorem pushAll_wf {m : Memory} (bs : List Byte) (h : m.wf = true) : (m.pushAll bs).wf = true := by
  induction bs generalizing m with
  | nil => exact h
  | cons b bs ih => exact ih (push_wf b h)

/-- The canonical form: addresses rise strictly. -/
theorem wf_rising {m : Memory} (h : m.wf = true) : (m.map Prod.fst).Pairwise (· < ·) := by
  rw [(wf_iff m).1 h]; exact List.pairwise_lt_range

/-- Equal byte sequences are equal memories, in canonical form. -/
theorem wf_ext {m m' : Memory} (h : m.wf = true) (h' : m'.wf = true) (hb : m.bytes = m'.bytes) : m = m' := by
  have hl : m.length = m'.length := by rw [← bytes_length, hb, bytes_length]
  rw [wf_iff] at h h'
  have hz (n : Memory) : n = (n.map Prod.fst).zip (n.map Prod.snd) := by
    simpa [List.unzip_eq_map] using (List.zip_unzip n).symm
  rw [hz m, hz m', h, h', hl]
  exact congrArg _ hb

theorem readByte_append (m m' : Memory) (a : Nat) :
    Memory.readByte (m ++ m') a = (Memory.readByte m a).or (Memory.readByte m' a) := by
  induction m with
  | nil => simp [Memory.readByte, Memory.unlisted]
  | cons c m ih =>
    obtain ⟨c, b⟩ := c
    simp only [List.cons_append, Memory.readByte]
    split <;> simp [ih]

/-- In canonical form, reading address `a` gives byte `a` of the sequence. -/
theorem readByte_eq {m : Memory} (h : m.wf = true) (a : Nat) : m.readByte a = m.bytes[a]? := by
  induction m using List.reverseRecOn with
  | nil => simp [Memory.readByte, Memory.bytes, Memory.unlisted]
  | append_singleton m c ih =>
    obtain ⟨c, b⟩ := c
    rw [wf_iff] at h
    simp only [List.map_append, List.map_cons, List.map_nil, List.length_append, List.length_cons, List.length_nil,
      Nat.zero_add, List.range_succ] at h
    obtain ⟨hm, hc⟩ := List.append_inj' h rfl
    have hc : c = m.length := by simpa using hc
    subst hc
    rw [readByte_append, ih ((wf_iff m).2 hm)]
    simp only [Memory.bytes, List.map_append, List.map_cons, List.map_nil, Memory.readByte, Memory.unlisted]
    rcases Nat.lt_trichotomy a m.length with hlt | heq | hgt
    · rw [List.getElem?_append_left (by simpa using hlt)]
      simp [show m.length ≠ a by omega]
    · subst heq; simp
    · rw [List.getElem?_append_right (by simp; omega), List.getElem?_eq_none (by simp; omega)]
      simp [show m.length ≠ a by omega, show a - m.length ≠ 0 by omega]

/-- `MemRead(0, len(buffer))` is the byte sequence (R8, R142). -/
theorem read_all {m : Memory} (h : m.wf = true) : m.read 0 m.length = some m.bytes := by
  have key : ∀ n, n ≤ m.length → (List.range n).mapM m.readByte = some (m.bytes.take n) := by
    intro n hn
    induction n with
    | zero => simp
    | succ n ih =>
      have hlt : n < m.bytes.length := by rw [bytes_length]; omega
      obtain ⟨b, hb⟩ : ∃ b, m.bytes[n]? = some b := ⟨_, List.getElem?_eq_getElem hlt⟩
      rw [List.range_succ, List.mapM_append, ih (by omega)]
      simp [readByte_eq h, List.take_add_one, hb]
  have := key m.length (Nat.le_refl _)
  rw [List.take_of_length_le (by simp)] at this
  simp [Memory.read, List.range_eq_range', ← this]

/-- A push leaves every other address alone. -/
theorem pushAll_readByte {m : Memory} (h : m.wf = true) (bs : List Byte) (a : Nat)
    (ha : a < m.length ∨ m.length + bs.length ≤ a) : (m.pushAll bs).readByte a = m.readByte a := by
  rw [readByte_eq (pushAll_wf bs h), readByte_eq h, pushAll_bytes]
  rcases ha with ha | ha
  · rw [List.getElem?_append_left (by simpa using ha)]
  · rw [List.getElem?_eq_none (by simp; omega), List.getElem?_eq_none (by simp; omega)]

/-- A read after a push of the same address gives the byte pushed. -/
theorem pushAll_readByte_new {m : Memory} (h : m.wf = true) (bs : List Byte) (i : Nat) :
    (m.pushAll bs).readByte (m.length + i) = bs[i]? := by
  rw [readByte_eq (pushAll_wf bs h), pushAll_bytes, List.getElem?_append_right (by simp)]
  simp

end Sys2Proof.Machine
end

