-- ==== Sys2Proof/Laws/Write.lean ====
section
/-! SUPPORT. What the primitive achieves (spec/40_core_write.md R67): the transcribed steps of R62 to R65 are the closed
form `WriterState.appendBits`, for every writer whose cache is clean (spec/10_state.md R26 (b)). -/

namespace Sys2Proof.Machine

/-- The width mask is the remainder by 2^width (R62). -/
theorem maskValue_eq (value : Word) (width : Nat) : maskValue value width = value.toNat % 2 ^ width := by
  unfold maskValue
  split
  · next h64 => rw [h64, Nat.mod_eq_of_lt value.isLt]
  · rw [Nat.one_shiftLeft, Nat.and_two_pow_sub_one_eq_mod]

/-- The loop of R65 pushes the bytes `v[w-1 : w-8]`, `v[w-9 : w-16]`, ... and touches nothing else. -/
theorem emitBytes_eq (trips v w : Nat) (ws : WriterState) :
    emitBytes trips v w ws =
      { ws with buffer := ws.buffer.pushAll ((List.range trips).map fun i => byteOf (v >>> (w - 8 * (i + 1)))) } := by
  induction trips generalizing w ws with
  | zero => simp [emitBytes]
  | succ trips ih =>
    rw [emitBytes, ih]
    simp only [pushByte_buffer, pushByte_bitCount, pushByte_cache, pushByte_pendingBits, List.range_succ_eq_map,
      List.map_cons, List.map_map, pushAll_cons, Nat.zero_add, Nat.mul_one]
    congr 3
    funext i
    simp only [Function.comp, Nat.succ_eq_add_one]
    congr 2
    omega

/-- The pending bits as a number are below 2^pending_bits (R67). -/
theorem pending_number_lt (ws : WriterState) :
    ws.cache.toNat / 2 ^ (8 - ws.pendingBits.val) < 2 ^ ws.pendingBits.val := by
  have hk := ws.pendingBits.isLt
  rw [Nat.div_lt_iff_lt_mul (by positivity), ← pow_add, show ws.pendingBits.val + (8 - ws.pendingBits.val) = 8 by omega]
  exact ws.cache.isLt

/-- A clean cache is its pending bits, left-justified. -/
theorem clean_cache {ws : WriterState} (h : ws.CacheClean) :
    ws.cache.toNat / 2 ^ (8 - ws.pendingBits.val) * 2 ^ (8 - ws.pendingBits.val) = ws.cache.toNat :=
  Nat.div_mul_cancel (Nat.dvd_of_mod_eq_zero h)

/-- An OR of a number whose low `n` bits are zero with one below 2^n is a sum. -/
theorem or_eq_add {x y n : Nat} (hy : y < 2 ^ n) : x * 2 ^ n ||| y = x * 2 ^ n + y := by
  rw [Nat.mul_comm, Nat.two_pow_add_eq_or_of_lt hy]

theorem byteOf_toNat (e : Nat) : (byteOf e).toNat = e % 256 := by
  simp [byteOf, BitVec.toNat_ofNat]

/-- Writing no bits changes nothing (R61). -/
theorem appendBits_zero {ws : WriterState} (h : ws.CacheClean) (v : Nat) : ws.appendBits v 0 = ws := by
  have hk := ws.pendingBits.isLt
  have hlt := pending_number_lt ws
  apply writer_ext
  · simp [WriterState.appendBits, topBytes, Nat.div_eq_of_lt hk]
  · simp [WriterState.appendBits]
  · apply BitVec.eq_of_toNat_eq
    simp only [WriterState.appendBits, Nat.add_zero, pow_zero, Nat.mul_one, Nat.mod_one, Nat.mod_eq_of_lt hk,
      Nat.mod_eq_of_lt hlt, clean_cache h, BitVec.toNat_ofNat]
    exact Nat.mod_eq_of_lt ws.cache.isLt
  · simp [WriterState.appendBits, Nat.mod_eq_of_lt hk]

/-- R64 in closed form. -/
theorem mergeInCache_eq {ws : WriterState} (h : ws.CacheClean) {v n : Nat} (hv : v < 2 ^ n)
    (hn : ws.pendingBits.val + n < 8) :
    mergeInCache v n (ws.countBits n) = ws.appendBits v n := by
  have hlt := pending_number_lt ws
  have hclean := clean_cache h
  apply writer_ext
  · simp [mergeInCache, WriterState.appendBits, topBytes, Nat.div_eq_of_lt hn]
  · rfl
  · apply BitVec.eq_of_toNat_eq
    simp only [mergeInCache, WriterState.appendBits, countBits_cache, countBits_pendingBits, BitVec.toNat_or, byteOf_toNat,
      BitVec.toNat_ofNat, Nat.mod_eq_of_lt hn, Nat.mod_eq_of_lt hv, Nat.shiftLeft_eq]
    set k := ws.pendingBits.val
    set a := ws.cache.toNat / 2 ^ (8 - k)
    have hx : a * 2 ^ n + v < 2 ^ (k + n) := by
      rw [pow_add]; nlinarith
    have hsplit : 2 ^ (8 - k) = 2 ^ n * 2 ^ (8 - (k + n)) := by rw [← pow_add]; congr 1; omega
    have h8 : (2 : Nat) ^ (k + n) * 2 ^ (8 - (k + n)) = 2 ^ 8 := by rw [← pow_add, show k + n + (8 - (k + n)) = 8 by omega]
    have hvs : v * 2 ^ (8 - (k + n)) < 2 ^ (8 - k) := by rw [hsplit]; exact Nat.mul_lt_mul_of_pos_right hv (by positivity)
    have hvs' : v * 2 ^ (8 - (k + n)) < 256 := lt_of_lt_of_le hvs (by
      rw [show 256 = 2 ^ 8 by rfl]; exact Nat.pow_le_pow_right (by omega) (by omega))
    rw [Nat.mod_eq_of_lt hx, Nat.mod_eq_of_lt hvs', Nat.mod_eq_of_lt (by rw [← h8]; exact Nat.mul_lt_mul_of_pos_right hx (by positivity)),
      ← hclean, or_eq_add hvs, hsplit]
    ring
  · simp [mergeInCache, WriterState.appendBits, Nat.mod_eq_of_lt hn]

/-- R65 in closed form. -/
theorem mergeAcrossBytes_eq {ws : WriterState} (h : ws.CacheClean) {v n : Nat} (hv : v < 2 ^ n)
    (hn : 8 ≤ ws.pendingBits.val + n) :
    mergeAcrossBytes v n (ws.countBits n) = ws.appendBits v n := by
  have hk := ws.pendingBits.isLt
  have hlt := pending_number_lt ws
  have hclean := clean_cache h
  set k := ws.pendingBits.val with hkdef
  set a := ws.cache.toNat / 2 ^ (8 - k) with hadef
  have hrem : (n - (8 - k)) % 8 = (k + n) % 8 := by omega
  have hquo : (n - (8 - k)) / 8 + 1 = (k + n) / 8 := by omega
  have hv' : v % 2 ^ n = v := Nat.mod_eq_of_lt hv
  apply writer_ext
  · simp only [mergeAcrossBytes, emitBytes_eq, WriterState.appendBits, pushByte_buffer, countBits_buffer, countBits_cache,
      countBits_pendingBits, ← hkdef, ← hadef, topBytes, ← hquo, List.range_succ_eq_map, List.map_cons, List.map_map, hv']
    rw [pushAll_cons]
    congr 1
    · congr 1
      apply BitVec.eq_of_toNat_eq
      have hfirst : v / 2 ^ (n - (8 - k)) < 2 ^ (8 - k) := by
        rw [Nat.div_lt_iff_lt_mul (by positivity), ← pow_add, show 8 - k + (n - (8 - k)) = n by omega]; exact hv
      have hdiv : (a * 2 ^ n + v) / 2 ^ (k + n - 8 * (0 + 1)) = a * 2 ^ (8 - k) + v / 2 ^ (n - (8 - k)) := by
        rw [show k + n - 8 * (0 + 1) = n - (8 - k) by omega,
          show a * 2 ^ n = 2 ^ (n - (8 - k)) * (a * 2 ^ (8 - k)) by
            rw [show n = (n - (8 - k)) + (8 - k) by omega, pow_add]
            rw [show n - (8 - k) + (8 - k) - (8 - k) = n - (8 - k) by omega]; ring,
          Nat.mul_add_div (by positivity)]
      have hfit : a * 2 ^ (8 - k) + v / 2 ^ (n - (8 - k)) < 256 := by
        have h8 : (2 : Nat) ^ k * 2 ^ (8 - k) = 256 := by rw [← pow_add, show k + (8 - k) = 8 by omega]; rfl
        have : (a + 1) * 2 ^ (8 - k) ≤ 2 ^ k * 2 ^ (8 - k) := Nat.mul_le_mul_right _ hlt
        rw [h8] at this
        linarith [Nat.add_mul a 1 (2 ^ (8 - k))]
      have hb : (byteOf (v >>> (n - (8 - k)))).toNat = v / 2 ^ (n - (8 - k)) := by
        rw [byteOf_toNat, Nat.shiftRight_eq_div_pow]
        exact Nat.mod_eq_of_lt (lt_of_le_of_lt (Nat.le_add_left _ _) hfit)
      rw [BitVec.toNat_or, hb, ← hclean, or_eq_add hfirst, hdiv, BitVec.toNat_ofNat, Nat.mod_eq_of_lt hfit]
    · apply List.map_congr_left
      intro i hi
      have hi : i < (n - (8 - k)) / 8 := List.mem_range.1 hi
      apply BitVec.eq_of_toNat_eq
      simp only [Function.comp, Nat.succ_eq_add_one, byteOf_toNat, BitVec.toNat_ofNat, Nat.shiftRight_eq_div_pow]
      rw [show k + n - 8 * (i + 1 + 1) = n - (8 - k) - 8 * (i + 1) by omega]
      set s := n - (8 - k) - 8 * (i + 1) with hs
      rw [show a * 2 ^ n = 2 ^ s * (a * 2 ^ (n - s - 8) * 2 ^ 8) by
            conv_lhs => rw [show n = s + (n - s - 8) + 8 by omega, pow_add, pow_add]
            ring,
        Nat.mul_add_div (by positivity), show (256 : Nat) = 2 ^ 8 by rfl, Nat.mul_add_mod_self_right]
  · simp [mergeAcrossBytes, emitBytes_eq, WriterState.appendBits]
  · apply BitVec.eq_of_toNat_eq
    simp only [mergeAcrossBytes, WriterState.appendBits, countBits_pendingBits, ← hkdef, ← hadef, hrem, hv', byteOf_toNat,
      BitVec.toNat_ofNat, Nat.shiftLeft_eq]
    set r := (k + n) % 8 with hr
    have hrn : r ≤ n := by omega
    have hr8 : r < 8 := Nat.mod_lt _ (by omega)
    have h8 : (256 : Nat) = 2 ^ (8 - r) * 2 ^ r := by rw [← pow_add, show 8 - r + r = 8 by omega]; rfl
    have hmod : (a * 2 ^ n + v) % 2 ^ r = v % 2 ^ r := by
      rw [show a * 2 ^ n = a * 2 ^ (n - r) * 2 ^ r by rw [Nat.mul_assoc, ← pow_add, Nat.sub_add_cancel hrn],
        Nat.mul_add_mod_self_right]
    rw [hmod, show (2 : Nat) ^ 8 = 2 ^ (8 - r) * 2 ^ r by rw [← h8]; rfl, h8, Nat.mul_comm v, Nat.mul_mod_mul_left,
      Nat.mul_comm (v % 2 ^ r), Nat.mul_mod_mul_left, Nat.mod_mod]
  · simp [mergeAcrossBytes, WriterState.appendBits, ← hkdef, hrem]

/-- The primitive, from validation on, is the closed form (R67). -/
theorem packBits_eq {ws : WriterState} (h : ws.CacheClean) (value : Word) (n : Nat) :
    packBits value n ws = ws.appendBits value.toNat n := by
  have happ : ws.appendBits (value.toNat % 2 ^ n) n = ws.appendBits value.toNat n := by
    simp [WriterState.appendBits]
  unfold packBits
  split
  · next h0 => subst h0; exact (appendBits_zero h _).symm
  · have hv : maskValue value n < 2 ^ n := by rw [maskValue_eq value n]; exact Nat.mod_lt _ (by positivity)
    rw [mergeBits, ← happ, ← maskValue_eq value n, countBits_pendingBits]
    split
    · next hlt => exact mergeInCache_eq h hv hlt
    · next hge => exact mergeAcrossBytes_eq h hv (by omega)

end Sys2Proof.Machine
end

