-- ==== Sys2Proof/Laws/Stream.lean ====
section
/-! SUPPORT. The output stream (spec/20_memory.md R41, R42): an append adds its bits at the end of the stream and keeps
the invariants of spec/10_state.md R26. -/

namespace Sys2Proof.Machine

@[simp] theorem bitsOf_length (v n : Nat) : (bitsOf v n).length = n := by simp [bitsOf]

@[simp] theorem bitsOf_zero (v : Nat) : bitsOf v 0 = [] := rfl

/-- Bit `i` of the list is bit `n-1-i` of the number: most-significant first (R42). -/
theorem bitsOf_getElem (v n i : Nat) (h : i < (bitsOf v n).length) : (bitsOf v n)[i] = v.testBit (n - 1 - i) := by
  simp [bitsOf]

theorem bitsOf_mod (v n : Nat) : bitsOf (v % 2 ^ n) n = bitsOf v n := by
  refine List.map_congr_left fun i hi => ?_
  have hi := List.mem_range.1 hi
  rw [Nat.testBit_mod_two_pow, decide_eq_true (by omega : n - 1 - i < n), Bool.true_and]

theorem bitsOf_add (v m r : Nat) : bitsOf v (m + r) = bitsOf (v / 2 ^ r) m ++ bitsOf v r := by
  apply List.ext_getElem (by simp)
  intro i h _
  have h : i < m + r := by simpa using h
  rw [bitsOf_getElem]
  rcases Nat.lt_or_ge i m with hi | hi
  · rw [List.getElem_append_left (by simpa using hi), bitsOf_getElem, Nat.testBit_div_two_pow]
    congr 1; omega
  · rw [List.getElem_append_right (by simpa using hi), bitsOf_getElem]
    congr 1; simp only [bitsOf_length]; omega

/-- Two numbers side by side (R67's `X`). -/
theorem bitsOf_concat (a v k n : Nat) : bitsOf (a * 2 ^ n + v % 2 ^ n) (k + n) = bitsOf a k ++ bitsOf v n := by
  have hlt : v % 2 ^ n < 2 ^ n := Nat.mod_lt _ (by positivity)
  have hdiv : (a * 2 ^ n + v % 2 ^ n) / 2 ^ n = a := by
    rw [Nat.mul_comm, Nat.mul_add_div (by positivity), Nat.div_eq_of_lt hlt, Nat.add_zero]
  have hmod : (a * 2 ^ n + v % 2 ^ n) % 2 ^ n = v % 2 ^ n := by rw [Nat.mul_add_mod_self_right, Nat.mod_mod]
  rw [bitsOf_add, hdiv, ← bitsOf_mod (a * 2 ^ n + v % 2 ^ n), hmod, bitsOf_mod]

@[simp] theorem bitsOfByte_length (b : Byte) : (bitsOfByte b).length = 8 := bitsOf_length _ _

theorem bitsOfByte_ofNat (v : Nat) : bitsOfByte (BitVec.ofNat 8 v) = bitsOf v 8 := by
  rw [bitsOfByte, BitVec.toNat_ofNat, bitsOf_mod]

/-- The valid bits of the cache are the pending bits as a number. -/
theorem cache_bits (ws : WriterState) :
    (bitsOfByte ws.cache).take ws.pendingBits.val =
      bitsOf (ws.cache.toNat / 2 ^ (8 - ws.pendingBits.val)) ws.pendingBits.val := by
  have hk := ws.pendingBits.isLt
  have hsplit := bitsOf_add ws.cache.toNat ws.pendingBits.val (8 - ws.pendingBits.val)
  rw [show ws.pendingBits.val + (8 - ws.pendingBits.val) = 8 by omega] at hsplit
  rw [bitsOfByte, hsplit, List.take_left' (by simp)]

theorem topBytes_length (x t : Nat) : (topBytes x t).length = t / 8 := by simp [topBytes]

/-- The whole bytes of a `t`-bit number are its top bits. -/
theorem topBytes_bits (x t : Nat) : (topBytes x t).flatMap bitsOfByte = bitsOf (x / 2 ^ (t % 8)) (8 * (t / 8)) := by
  have key : ∀ q, 8 * q ≤ t → ((List.range q).map fun i => BitVec.ofNat 8 (x / 2 ^ (t - 8 * (i + 1)))).flatMap bitsOfByte =
      bitsOf (x / 2 ^ (t - 8 * q)) (8 * q) := by
    intro q hq
    induction q with
    | zero => rfl
    | succ q ih =>
      rw [List.range_succ, List.map_append, List.flatMap_append, ih (by omega), Nat.mul_succ, bitsOf_add, Nat.div_div_eq_div_mul,
        ← pow_add, show t - (8 * q + 8) + 8 = t - 8 * q by omega]
      simp [bitsOfByte_ofNat, Nat.mul_add]
  rw [topBytes, key _ (by omega)]
  congr 3
  omega

theorem appendBits_bytes (ws : WriterState) (v n : Nat) :
    (ws.appendBits v n).buffer.bytes = ws.buffer.bytes ++
      topBytes (ws.cache.toNat / 2 ^ (8 - ws.pendingBits.val) * 2 ^ n + v % 2 ^ n) (ws.pendingBits.val + n) := by
  simp [WriterState.appendBits]

/-- A write appends `(pending_bits + n) div 8` bytes (R44). -/
theorem appendBits_length (ws : WriterState) (v n : Nat) :
    (ws.appendBits v n).buffer.length = ws.buffer.length + (ws.pendingBits.val + n) / 8 := by
  simp [WriterState.appendBits, topBytes_length]

theorem appendBits_pendingBits (ws : WriterState) (v n : Nat) :
    (ws.appendBits v n).pendingBits.val = (ws.pendingBits.val + n) % 8 := by
  simp [WriterState.appendBits]

/-- An append adds the `n` bits of `v`, most-significant first, at the end of the stream (R67). -/
theorem appendBits_stream (ws : WriterState) (v n : Nat) : (ws.appendBits v n).stream = ws.stream ++ bitsOf v n := by
  have hk := ws.pendingBits.isLt
  set a := ws.cache.toNat / 2 ^ (8 - ws.pendingBits.val) with ha
  set t := ws.pendingBits.val + n with ht
  set x := a * 2 ^ n + v % 2 ^ n with hx
  have hr : t % 8 < 8 := Nat.mod_lt _ (by omega)
  have hcache : (ws.appendBits v n).cache.toNat / 2 ^ (8 - t % 8) = x % 2 ^ (t % 8) := by
    have hfit : x % 2 ^ (t % 8) * 2 ^ (8 - t % 8) < 2 ^ 8 := by
      have h8 : (2 : Nat) ^ 8 = 2 ^ (t % 8) * 2 ^ (8 - t % 8) := by rw [← pow_add]; congr 1; omega
      rw [h8]
      exact Nat.mul_lt_mul_of_pos_right (Nat.mod_lt _ (by positivity)) (by positivity)
    simp only [WriterState.appendBits, ← ha, ← ht, ← hx, BitVec.toNat_ofNat]
    rw [Nat.mod_eq_of_lt hfit, Nat.mul_div_cancel _ (by positivity)]
  have hbits : bitsOf x t = bitsOf (x / 2 ^ (t % 8)) (8 * (t / 8)) ++ bitsOf x (t % 8) := by
    rw [← bitsOf_add]; congr 1; omega
  rw [WriterState.stream, WriterState.stream, cache_bits, cache_bits, appendBits_pendingBits, hcache, bitsOf_mod, appendBits_bytes,
    List.flatMap_append, topBytes_bits, List.append_assoc, ← hbits, hx, bitsOf_concat, List.append_assoc]

/-- An append in range keeps the invariants of R26. -/
theorem appendBits_inv {ws : WriterState} (h : ws.Inv) (v n : Nat) (hn : ws.bitCount.toNat + n < 2 ^ 64) :
    (ws.appendBits v n).Inv := by
  have hr : (ws.pendingBits.val + n) % 8 < 8 := Nat.mod_lt _ (by omega)
  refine ⟨pushAll_wf _ h.canonical, by rw [appendBits_pendingBits]; exact hr, ?_, ?_⟩
  · unfold WriterState.CacheClean
    rw [appendBits_pendingBits]
    set r := (ws.pendingBits.val + n) % 8
    simp only [WriterState.appendBits, BitVec.toNat_ofNat]
    have h8 : (2 : Nat) ^ 8 = 2 ^ r * 2 ^ (8 - r) := by rw [← pow_add]; congr 1; omega
    rw [h8, Nat.mul_mod_mul_right, Nat.mul_mod_left]
  · rw [appendBits_length, appendBits_pendingBits]
    have hc := h.counted
    have hb : (ws.appendBits v n).bitCount.toNat = ws.bitCount.toNat + n := by
      simp only [WriterState.appendBits, BitVec.toNat_add, BitVec.toNat_ofNat, Nat.add_mod_mod]
      exact Nat.mod_eq_of_lt hn
    rw [hb]
    omega

end Sys2Proof.Machine
end

