-- ==== Sys2Proof/Laws/Append.lean ====
section
/-! SUPPORT. Two appends are one (spec/20_memory.md R43): the buffer keeps no record of the widths that produced it. From it,
the bodies of SKIP and WBYTES in closed form (spec/42_structural.md R122, R129). -/

namespace Sys2Proof.Machine

/-- The pending bits an append leaves, as a number. -/
theorem appendBits_pending_number (ws : WriterState) (v n : Nat) :
    (ws.appendBits v n).cache.toNat / 2 ^ (8 - (ws.pendingBits.val + n) % 8) =
      (ws.cache.toNat / 2 ^ (8 - ws.pendingBits.val) * 2 ^ n + v % 2 ^ n) % 2 ^ ((ws.pendingBits.val + n) % 8) := by
  have hr : (ws.pendingBits.val + n) % 8 < 8 := Nat.mod_lt _ (by omega)
  simp only [WriterState.appendBits, BitVec.toNat_ofNat]
  set r := (ws.pendingBits.val + n) % 8
  set x := ws.cache.toNat / 2 ^ (8 - ws.pendingBits.val) * 2 ^ n + v % 2 ^ n
  have h8 : (2 : Nat) ^ 8 = 2 ^ r * 2 ^ (8 - r) := by rw [← pow_add]; congr 1; omega
  rw [h8, Nat.mod_eq_of_lt (Nat.mul_lt_mul_of_pos_right (Nat.mod_lt _ (by positivity)) (by positivity)),
    Nat.mul_div_cancel _ (by positivity)]

/-- The whole bytes of `x` followed by `n` more bits: those of `x`, then those of what was left of `x` and the new bits. -/
theorem topBytes_concat (x v t n : Nat) (hv : v < 2 ^ n) :
    topBytes (x * 2 ^ n + v) (t + n) = topBytes x t ++ topBytes (x % 2 ^ (t % 8) * 2 ^ n + v) (t % 8 + n) := by
  apply List.ext_getElem (by simp only [topBytes_length, List.length_append]; omega)
  intro i hi _
  have hi : i < (t + n) / 8 := by simpa [topBytes_length] using hi
  rcases Nat.lt_or_ge i (t / 8) with h | h
  · rw [List.getElem_append_left (by simpa [topBytes_length] using h)]
    simp only [topBytes, List.getElem_map, List.getElem_range]
    congr 1
    rw [show t + n - 8 * (i + 1) = n + (t - 8 * (i + 1)) by omega, pow_add, ← Nat.div_div_eq_div_mul, Nat.mul_comm x,
      Nat.mul_add_div (by positivity), Nat.div_eq_of_lt hv, Nat.add_zero]
  · rw [List.getElem_append_right (by simpa [topBytes_length] using h)]
    simp only [topBytes, List.getElem_map, List.getElem_range, List.length_map, List.length_range]
    apply BitVec.eq_of_toNat_eq
    simp only [BitVec.toNat_ofNat]
    set s := t + n - 8 * (i + 1) with hs
    rw [show t % 8 + n - 8 * (i - t / 8 + 1) = s by omega]
    have hx : x * 2 ^ n + v = 2 ^ s * (x / 2 ^ (t % 8) * 2 ^ (t % 8 + n - s - 8) * 2 ^ 8) + (x % 2 ^ (t % 8) * 2 ^ n + v) := by
      have e : 2 ^ s * (x / 2 ^ (t % 8) * 2 ^ (t % 8 + n - s - 8) * 2 ^ 8) = 2 ^ (t % 8) * (x / 2 ^ (t % 8)) * 2 ^ n := by
        have : (2 : Nat) ^ s * (2 ^ (t % 8 + n - s - 8) * 2 ^ 8) = 2 ^ (t % 8) * 2 ^ n := by
          rw [← pow_add, ← pow_add, ← pow_add]; congr 1; omega
        calc _ = x / 2 ^ (t % 8) * (2 ^ s * (2 ^ (t % 8 + n - s - 8) * 2 ^ 8)) := by ring
          _ = _ := by rw [this]; ring
      rw [e, ← Nat.add_assoc, ← Nat.add_mul, Nat.div_add_mod]
    rw [hx, Nat.mul_add_div (by positivity), Nat.mul_add_mod_self_right]

/-- Two appends are one append of the two numbers side by side (R43). -/
theorem appendBits_append (ws : WriterState) (v m w n : Nat) :
    (ws.appendBits v m).appendBits w n = ws.appendBits (v * 2 ^ n + w % 2 ^ n) (m + n) := by
  have hw : w % 2 ^ n < 2 ^ n := Nat.mod_lt _ (by positivity)
  have hp : (ws.appendBits v m).pendingBits.val = (ws.pendingBits.val + m) % 8 := appendBits_pendingBits ws v m
  have hmod : (v * 2 ^ n + w % 2 ^ n) % 2 ^ (m + n) = v % 2 ^ m * 2 ^ n + w % 2 ^ n := by
    rw [pow_add, Nat.mul_comm (2 ^ m), Nat.mod_mul, Nat.mul_add_mod_self_right, Nat.mod_mod, Nat.mul_comm v,
      Nat.mul_add_div (by positivity), Nat.div_eq_of_lt hw, Nat.add_zero]
    ring
  set a := ws.cache.toNat / 2 ^ (8 - ws.pendingBits.val) with ha
  set t := ws.pendingBits.val + m with ht
  set x := a * 2 ^ m + v % 2 ^ m with hx
  have hbig : a * 2 ^ (m + n) + (v % 2 ^ m * 2 ^ n + w % 2 ^ n) = x * 2 ^ n + w % 2 ^ n := by rw [hx, pow_add]; ring
  have hnum : (ws.appendBits v m).cache.toNat / 2 ^ (8 - t % 8) = x % 2 ^ (t % 8) := appendBits_pending_number ws v m
  have hT : (t % 8 + n) % 8 = (t + n) % 8 := by omega
  apply writer_ext
  · rw [WriterState.appendBits, WriterState.appendBits.eq_def ws (v * 2 ^ n + w % 2 ^ n)]
    simp only [hp, hnum, hmod, ← ha, hbig, ← Nat.add_assoc, ← ht]
    rw [topBytes_concat x (w % 2 ^ n) t n hw, pushAll_append]
    rfl
  · simp only [WriterState.appendBits, BitVec.add_assoc, ← BitVec.ofNat_add]
  · rw [WriterState.appendBits, WriterState.appendBits.eq_def ws (v * 2 ^ n + w % 2 ^ n)]
    simp only [hp, hnum, hmod, ← ha, hbig, ← Nat.add_assoc, ← ht, hT]
    congr 2
    set r := (t + n) % 8 with hr
    obtain ⟨c, hc⟩ : ∃ c, t % 8 + n = r + 8 * c := ⟨(t % 8 + n) / 8, by omega⟩
    have hdrop : x * 2 ^ n = x / 2 ^ (t % 8) * 2 ^ (8 * c) * 2 ^ r + x % 2 ^ (t % 8) * 2 ^ n := by
      have : (2 : Nat) ^ (8 * c) * 2 ^ r = 2 ^ (t % 8) * 2 ^ n := by rw [← pow_add, ← pow_add]; congr 1; omega
      calc x * 2 ^ n = (2 ^ (t % 8) * (x / 2 ^ (t % 8)) + x % 2 ^ (t % 8)) * 2 ^ n := by rw [Nat.div_add_mod]
        _ = x / 2 ^ (t % 8) * (2 ^ (t % 8) * 2 ^ n) + x % 2 ^ (t % 8) * 2 ^ n := by ring
        _ = _ := by rw [← this]; ring
    rw [hdrop, Nat.add_assoc, Nat.mul_add_mod_self_right]
  · apply Fin.ext
    rw [appendBits_pendingBits, hp, appendBits_pendingBits]
    omega

theorem appendBits_clean {ws : WriterState} (v n : Nat) : (ws.appendBits v n).CacheClean := by
  have hr : (ws.pendingBits.val + n) % 8 < 8 := Nat.mod_lt _ (by omega)
  unfold WriterState.CacheClean
  rw [appendBits_pendingBits]
  set r := (ws.pendingBits.val + n) % 8
  simp only [WriterState.appendBits, BitVec.toNat_ofNat]
  have h8 : (2 : Nat) ^ 8 = 2 ^ r * 2 ^ (8 - r) := by rw [← pow_add]; congr 1; omega
  rw [h8, Nat.mul_mod_mul_right, Nat.mul_mod_left]

theorem skipChunks_eq {ws : WriterState} (h : ws.CacheClean) (trips : Nat) :
    skipChunks trips ws = ws.appendBits 0 (64 * trips) := by
  induction trips generalizing ws with
  | zero => exact (appendBits_zero h 0).symm
  | succ trips ih =>
    rw [skipChunks, packBits_eq h, ih (appendBits_clean _ _), appendBits_append]
    simp [Nat.mul_add, Nat.add_comm]

/-- The body of SKIP appends `n` zero bits (R122). -/
theorem skipBits_eq {ws : WriterState} (h : ws.CacheClean) (n : Nat) : skipBits n ws = ws.appendBits 0 n := by
  rw [skipBits, skipChunks_eq h, packBits_eq (appendBits_clean _ _), appendBits_append]
  simp [Nat.div_add_mod]

theorem numberOfBytes_append (bs : List Byte) (b : Byte) : numberOfBytes (bs ++ [b]) = numberOfBytes bs * 256 + b.toNat := by
  simp [numberOfBytes]

theorem appendUnaligned_append (bs cs : List Byte) (ws : WriterState) :
    appendUnaligned (bs ++ cs) ws = appendUnaligned cs (appendUnaligned bs ws) := by
  induction bs generalizing ws with
  | nil => rfl
  | cons b bs ih => exact ih _

/-- The slow path of WBYTES appends its bytes as one number (R128, R129). -/
theorem appendUnaligned_eq {ws : WriterState} (h : ws.CacheClean) (bs : List Byte) :
    appendUnaligned bs ws = ws.appendBits (numberOfBytes bs) (8 * bs.length) := by
  induction bs using List.reverseRecOn with
  | nil => exact (appendBits_zero h _).symm
  | append_singleton bs b ih =>
    rw [appendUnaligned_append, ih, numberOfBytes_append, appendUnaligned, appendUnaligned, packBits_eq (appendBits_clean _ _),
      appendBits_append]
    have hb : (zextValue b).toNat = b.toNat := by
      simp only [zextValue, BitVec.toNat_setWidth]; exact Nat.mod_eq_of_lt (by have := b.isLt; omega)
    rw [hb, Nat.mod_eq_of_lt b.isLt, List.length_append, List.length_singleton, Nat.mul_add]
    rfl

theorem numberOfBytes_lt (bs : List Byte) : numberOfBytes bs < 2 ^ (8 * bs.length) := by
  induction bs using List.reverseRecOn with
  | nil => simp [numberOfBytes]
  | append_singleton bs b ih =>
    have hb := b.isLt
    rw [numberOfBytes_append, List.length_append, List.length_singleton, Nat.mul_add, pow_add]
    omega

theorem topBytes_numberOfBytes (bs : List Byte) : topBytes (numberOfBytes bs) (8 * bs.length) = bs := by
  induction bs using List.reverseRecOn with
  | nil => rfl
  | append_singleton bs b ih =>
    have h := topBytes_concat (numberOfBytes bs) b.toNat (8 * bs.length) 8 b.isLt
    rw [ih, Nat.mul_mod_right, pow_zero, Nat.mod_one, Nat.zero_mul, Nat.zero_add] at h
    rw [numberOfBytes_append, List.length_append, List.length_singleton, Nat.mul_add]
    rw [show (256 : Nat) = 2 ^ 8 by rfl, h]
    simp [topBytes]

/-- The fast path of WBYTES appends its bytes as one number (R127, R129). -/
theorem appendAligned_eq {ws : WriterState} (h : ws.CacheClean) (hp : ws.pendingBits = 0) (bs : List Byte) :
    appendAligned bs ws = ws.appendBits (numberOfBytes bs) (8 * bs.length) := by
  have hv : ws.pendingBits.val = 0 := by rw [hp]; rfl
  have hc : ws.cache.toNat / 2 ^ 8 = 0 := Nat.div_eq_of_lt ws.cache.isLt
  have hclean : ws.cache.toNat % 2 ^ 8 = 0 := by simpa [WriterState.CacheClean, hv] using h
  have hzero : ws.cache = 0 := BitVec.eq_of_toNat_eq (by rw [Nat.mod_eq_of_lt ws.cache.isLt] at hclean; simpa using hclean)
  apply writer_ext
  · simp only [appendAligned_buffer, WriterState.appendBits, hv, Nat.sub_zero, hc, Nat.zero_mul, Nat.zero_add,
      Nat.mod_eq_of_lt (numberOfBytes_lt bs), topBytes_numberOfBytes]
  · rfl
  · simp [WriterState.appendBits, hv, hzero, Nat.mod_one]
  · simp [WriterState.appendBits, hp]

/-- The body of WBYTES appends its bytes, whichever path runs (R129). -/
theorem appendBytes_eq {ws : WriterState} (h : ws.CacheClean) (bs : List Byte) :
    appendBytes bs ws = ws.appendBits (numberOfBytes bs) (8 * bs.length) := by
  unfold appendBytes byteAligned
  split
  · next hp => exact appendAligned_eq h (by simpa using hp) bs
  · exact appendUnaligned_eq h bs

end Sys2Proof.Machine
end

