-- ==== Sys2Proof/Laws/Codec.lean ====
section
/-! SUPPORT. The CMD word and its 11 bytes (spec/30_encoding.md R81): no bit of the word is dropped either way. -/

namespace Sys2Proof

/-- The eight bytes of the operand field, put together again, are the field. -/
theorem operandOfBytes_extract (v : Word) :
    operandOfBytes (v.extractLsb' 56 8) (v.extractLsb' 48 8) (v.extractLsb' 40 8) (v.extractLsb' 32 8)
      (v.extractLsb' 24 8) (v.extractLsb' 16 8) (v.extractLsb' 8 8) (v.extractLsb' 0 8) = v := by
  apply BitVec.eq_of_getLsbD_eq
  intro i hi
  simp only [operandOfBytes, BitVec.getLsbD_append, BitVec.getLsbD_extractLsb']
  interval_cases i <;> simp

theorem cmdOfBytes_bytesOfCmd (c : Cmd) (payload : List Byte) : cmdOfBytes (bytesOfCmd c ++ payload) = some (c, payload) := by
  simp [bytesOfCmd, cmdOfBytes, operandOfBytes_extract]

/-- A word and its payload decode by the word's fields. -/
theorem decode_bytesOfCmd (c : Cmd) (payload : List Byte) : decode (bytesOfCmd c ++ payload) = instrOfCmd c payload := by
  rw [decode, cmdOfBytes_bytesOfCmd]

/-- Fewer than 11 bytes are no word. -/
theorem cmdOfBytes_eq_none {bs : List Byte} (h : bs.length < 11) : cmdOfBytes bs = none := by
  rw [cmdOfBytes]
  intro op w m b7 b6 b5 b4 b3 b2 b1 b0 rest hbs
  subst hbs
  simp at h
  omega

/-- Eleven bytes or more are a word and what follows it. -/
theorem exists_cmd {bs : List Byte} (h : 11 ≤ bs.length) :
    ∃ c payload, cmdOfBytes bs = some (c, payload) ∧ bs.head? = some c.op ∧ payload.length + 11 = bs.length := by
  match bs, h with
  | op :: w :: m :: b7 :: b6 :: b5 :: b4 :: b3 :: b2 :: b1 :: b0 :: rest, _ => exact ⟨_, _, rfl, rfl, by simp⟩

theorem bytesOfCmd_length (c : Cmd) : (bytesOfCmd c).length = 11 := rfl

end Sys2Proof
end

