-- ==== Sys2Proof/Laws/Exec.lean ====
section
/-! SUPPORT. What each shared operation over the machine's state can do, said once: the range test (spec/10_state.md R23, R25),
`commit`, the unsigned and the signed write, SKIP, ALIGN. -/

namespace Sys2Proof.Machine

theorem counterOverflows_iff (ws : WriterState) (n : Nat) :
    counterOverflows ws n = true ↔ 2 ^ 64 - 1 < ws.bitCount.toNat + n := by
  rw [counterOverflows, decide_eq_true_eq]; rfl

theorem bufferOverflows_iff (cfg : Config) (ws : WriterState) (n : Nat) :
    bufferOverflows cfg ws n = true ↔ ∃ cap, cfg.bufCap = some cap ∧ 0 < (ws.pendingBits.val + n) / 8 ∧
      cap < ws.buffer.length + (ws.pendingBits.val + n) / 8 := by
  unfold bufferOverflows bytesPushed
  cases cfg.bufCap with
  | none => simp
  | some cap => rw [Bool.and_eq_true, decide_eq_true_eq, decide_eq_true_eq]; simp

/-- The range test passes exactly when there is room. -/
theorem rangeRefusal_eq_none (s : State) (n : Nat) : rangeRefusal s.config s.writer n = none ↔ s.RoomFor n := by
  have hc := counterOverflows_iff s.writer n
  have hb := bufferOverflows_iff s.config s.writer n
  unfold rangeRefusal
  constructor
  · intro h
    by_cases h1 : counterOverflows s.writer n = true
    · rw [if_pos h1] at h; cases h
    · rw [if_neg h1] at h
      by_cases h2 : bufferOverflows s.config s.writer n = true
      · rw [if_pos h2] at h; cases h
      · refine ⟨not_lt.1 fun hlt => h1 (hc.2 hlt), fun cap hcap => ?_⟩
        by_contra hno
        exact h2 (hb.2 ⟨cap, hcap, by omega, by omega⟩)
  · intro ⟨h1, h2⟩
    rw [if_neg fun h => by have := hc.1 h; omega, if_neg]
    intro h
    obtain ⟨cap, hcap, h0, h3⟩ := hb.1 h
    have := h2 cap hcap
    omega

/-- When the range test fails, the reason is one of the two of R23 and R25, the counter first. -/
theorem rangeRefusal_cases (s : State) (n : Nat) (r : Refusal) (h : rangeRefusal s.config s.writer n = some r) :
    (r = .bitCountOverflow ∧ 2 ^ 64 - 1 < s.writer.bitCount.toNat + n) ∨
      (r = .bufferFull ∧ s.writer.bitCount.toNat + n ≤ 2 ^ 64 - 1 ∧ ∃ cap, s.config.bufCap = some cap ∧
        0 < (s.writer.pendingBits.val + n) / 8 ∧
        cap < s.writer.buffer.length + (s.writer.pendingBits.val + n) / 8) := by
  have hc := counterOverflows_iff s.writer n
  unfold rangeRefusal at h
  by_cases h1 : counterOverflows s.writer n = true
  · rw [if_pos h1] at h; exact .inl ⟨by simpa using h.symm, hc.1 h1⟩
  · rw [if_neg h1] at h
    by_cases h2 : bufferOverflows s.config s.writer n = true
    · rw [if_pos h2] at h
      exact .inr ⟨by simpa using h.symm, not_lt.1 fun hlt => h1 (hc.2 hlt), (bufferOverflows_iff _ _ _).1 h2⟩
    · rw [if_neg h2] at h; cases h

theorem commit_of_room {s : State} {n : Nat} (h : s.RoomFor n) (ws : WriterState) : commit n ws s = .next (s.done ws) := by
  rw [commit, (rangeRefusal_eq_none s n).2 h]

/-- Everything `commit` can do. -/
theorem commit_cases (n : Nat) (ws : WriterState) (s : State) :
    (s.RoomFor n ∧ commit n ws s = .next (s.done ws)) ∨
      (¬ s.RoomFor n ∧ (commit n ws s = .refused .bitCountOverflow ∨ commit n ws s = .refused .bufferFull)) := by
  cases h : rangeRefusal s.config s.writer n with
  | none => exact .inl ⟨(rangeRefusal_eq_none s n).1 h, by rw [commit, h]⟩
  | some r =>
    refine .inr ⟨fun hr => by simp [(rangeRefusal_eq_none s n).2 hr] at h, ?_⟩
    rw [commit, h]
    rcases rangeRefusal_cases s n r h with ⟨rfl, -⟩ | ⟨rfl, -⟩
    · exact .inl rfl
    · exact .inr rfl

theorem commit_eq_next {n : Nat} {ws : WriterState} {s t : State} (h : commit n ws s = .next t) :
    s.RoomFor n ∧ t = s.done ws := by
  rcases commit_cases n ws s with ⟨h1, h2⟩ | ⟨-, h2 | h2⟩ <;> rw [h2] at h <;> cases h
  exact ⟨h1, rfl⟩

/-- Room for `m + n` bits is room for `m` bits, and then, with those appended, for `n` more. -/
theorem room_add {s : State} {m n : Nat} (h : s.RoomFor (m + n)) (v : Nat) :
    s.RoomFor m ∧ (s.done (s.writer.appendBits v m)).RoomFor n := by
  have hc := h.counter
  refine ⟨⟨by omega, fun cap hcap => ?_⟩, ⟨?_, fun cap hcap => ?_⟩⟩
  · have := h.buffer cap hcap; omega
  · simp only [done_writer, WriterState.appendBits, BitVec.toNat_add, BitVec.toNat_ofNat]; omega
  · have := h.buffer cap hcap
    simp only [done_writer, appendBits_length, appendBits_pendingBits]
    omega

/-- A command that writes no bits is always in range, so that a zero-width write is never refused. -/
theorem room_zero (s : State) : s.RoomFor 0 :=
  ⟨by have := s.writer.bitCount.isLt; omega, fun _ _ => .inl (by have := s.writer.pendingBits.isLt; omega)⟩

theorem widthSupported_iff (w m : Byte) : widthSupported w m = true ↔ w.toNat ≤ m.toNat ∧ w.toNat ≤ 64 := by
  rw [widthSupported, Bool.and_eq_true, decide_eq_true_eq, decide_eq_true_eq]; rfl

/-- The primitive as a command: a supported width is committed. -/
theorem writeBits_of_supported {w m : Byte} (h : w.toNat ≤ m.toNat ∧ w.toNat ≤ 64) (value : Word) (s : State) :
    writeBits value w m s = commit w.toNat (packBits value w.toNat s.writer) s := by
  rw [writeBits, if_pos ((widthSupported_iff w m).2 h)]

/-- The primitive as a command: an unsupported width is the error, whatever the value and the state (R61, R150). -/
theorem writeBits_of_unsupported {w m : Byte} (h : m.toNat < w.toNat ∨ 64 < w.toNat) (value : Word) (s : State) :
    writeBits value w m s = .next (s.failed .unsupportedWidth) := by
  rw [writeBits, if_neg (by rw [widthSupported_iff]; omega), raise]

theorem writeSigned_of_unsupported {w m : Byte} (h : m.toNat < w.toNat ∨ 64 < w.toNat) (value : Word) (s : State) :
    writeSigned value w m s = .next (s.failed .unsupportedWidth) := by
  rw [writeSigned, if_neg (by rw [widthSupported_iff]; omega), raise]

/-- The signed variant is the primitive on the folded value (R71); at width 0 the fold is never formed. -/
theorem writeSigned_of_supported {w m : Byte} (h : w.toNat ≤ m.toNat ∧ w.toNat ≤ 64) (value : Word) (s : State) :
    writeSigned value w m s =
      commit w.toNat (if w.toNat = 0 then s.writer else packBits (signFold value w.toNat) w.toNat s.writer) s := by
  rw [writeSigned, if_pos ((widthSupported_iff w m).2 h)]
  split
  · next h0 => rw [h0]
  · exact writeBits_of_supported h _ s

/-- The fold and the mask together give the pattern of R70; every shift amount is below 64 (R68). -/
theorem signFold_mod (value : Word) {w : Nat} (h : 1 ≤ w) (h64 : w ≤ 64) :
    (signFold value w).toNat % 2 ^ w = signedPattern value w := by
  unfold signFold signedPattern
  split
  · have hw : w - 1 < 64 := by omega
    have hbit : (1#64 <<< (w - 1)).toNat = 2 ^ (w - 1) := by
      rw [BitVec.toNat_shiftLeft, BitVec.toNat_ofNat, Nat.shiftLeft_eq]
      rw [Nat.mod_eq_of_lt (by norm_num : 1 < 2 ^ 64), Nat.one_mul]
      exact Nat.mod_eq_of_lt (Nat.pow_lt_pow_right (by omega) hw)
    rw [BitVec.toNat_or, hbit, Nat.or_mod_two_pow, Nat.mod_eq_of_lt (a := 2 ^ (w - 1)) (Nat.pow_lt_pow_right (by omega) (by omega))]
  · rfl

/-- An append takes the low `n` bits of its number only. -/
theorem appendBits_mod (ws : WriterState) (v n : Nat) : ws.appendBits (v % 2 ^ n) n = ws.appendBits v n := by
  simp [WriterState.appendBits]

/-- The primitive as a command, in range, on a clean cache: the closed form of R67. -/
theorem writeBits_eq {s : State} (hc : s.writer.CacheClean) (value : Word) {w m : Byte}
    (h : w.toNat ≤ m.toNat ∧ w.toNat ≤ 64) (hr : s.RoomFor w.toNat) :
    writeBits value w m s = .next (s.done (s.writer.appendBits value.toNat w.toNat)) := by
  rw [writeBits_of_supported h, packBits_eq hc, commit_of_room hr]

/-- The signed variant as a command, in range, on a clean cache: the closed form on the pattern of R70. -/
theorem writeSigned_eq {s : State} (hc : s.writer.CacheClean) (value : Word) {w m : Byte}
    (h : w.toNat ≤ m.toNat ∧ w.toNat ≤ 64) (hr : s.RoomFor w.toNat) :
    writeSigned value w m s = .next (s.done (s.writer.appendBits (signedPattern value w.toNat) w.toNat)) := by
  rw [writeSigned_of_supported h, commit_of_room hr]
  split
  · next h0 => rw [h0, appendBits_zero hc]
  · next h0 => rw [packBits_eq hc, ← signFold_mod value (by omega) h.2, appendBits_mod]

/-- The primitive depends on the low `width` bits of its value only (R62, R72). -/
theorem packBits_congr {v v' : Word} {n : Nat} (ws : WriterState) (h : v.toNat % 2 ^ n = v'.toNat % 2 ^ n) :
    packBits v n ws = packBits v' n ws := by
  unfold packBits; rw [maskValue_eq, maskValue_eq, h]

/-- R63: the counter grows by the width, whatever the value, the cache and the merge case. -/
theorem packBits_bitCount (v : Word) (n : Nat) (ws : WriterState) :
    (packBits v n ws).bitCount = ws.bitCount + BitVec.ofNat 64 n := by
  unfold packBits
  split
  · next h => simp [h]
  · unfold mergeBits
    split
    · rfl
    · simp [mergeAcrossBytes, emitBytes_eq]

theorem skipZeros_eq {s : State} (hc : s.writer.CacheClean) {n : Nat} (hr : s.RoomFor n) :
    skipZeros n s = .next (s.done (s.writer.appendBits 0 n)) := by
  rw [skipZeros, skipBits_eq hc, commit_of_room hr]

theorem alignTo_zero (s : State) : alignTo 0 s = .next (s.failed .invalidArgument) := rfl

theorem alignTo_of_pos {k : BitVec 32} (h : k ≠ 0) (s : State) :
    alignTo k s = skipZeros (padTo s.writer.bitCount.toNat k.toNat) s := by
  rw [alignTo, if_neg h]; rfl

/-! ### The arms of `exec` over the shared operations -/

theorem exec_wub (v : Word) (w m : Byte) (s : State) : exec (.wub v w m) s = writeBits v w m s := rfl
theorem exec_wsb (v : Word) (w m : Byte) (s : State) : exec (.wsb v w m) s = writeSigned v w m s := rfl
theorem exec_wbool (v : Bool) (w : Byte) (s : State) : exec (.wbool v w) s = writeBits (boolValue v) w 1 s := rfl
theorem exec_wu8 (v : BitVec 8) (w : Byte) (s : State) : exec (.wu8 v w) s = writeBits (zextValue v) w 8 s := rfl
theorem exec_wu16 (v : BitVec 16) (w : Byte) (s : State) : exec (.wu16 v w) s = writeBits (zextValue v) w 16 s := rfl
theorem exec_wu32 (v : BitVec 32) (w : Byte) (s : State) : exec (.wu32 v w) s = writeBits (zextValue v) w 32 s := rfl
theorem exec_wu64 (v : BitVec 64) (w : Byte) (s : State) : exec (.wu64 v w) s = writeBits v w 64 s := rfl
theorem exec_wi8 (v : BitVec 8) (w : Byte) (s : State) : exec (.wi8 v w) s = writeSigned (sextValue v) w 8 s := rfl
theorem exec_wi16 (v : BitVec 16) (w : Byte) (s : State) : exec (.wi16 v w) s = writeSigned (sextValue v) w 16 s := rfl
theorem exec_wi32 (v : BitVec 32) (w : Byte) (s : State) : exec (.wi32 v w) s = writeSigned (sextValue v) w 32 s := rfl
theorem exec_wi64 (v : BitVec 64) (w : Byte) (s : State) : exec (.wi64 v w) s = writeSigned v w 64 s := rfl
theorem exec_skip (n : Word) (s : State) : exec (.skip n) s = skipZeros n.toNat s := rfl
theorem exec_align (k : BitVec 32) (s : State) : exec (.align k) s = alignTo k s := rfl
theorem exec_wbytes (bs : List Byte) (s : State) :
    exec (.wbytes bs) s = commit (8 * bs.length) (appendBytes bs s.writer) s := rfl
theorem exec_close (s : State) : exec .close s = alignTo 1 s := rfl
theorem exec_bitcnt (s : State) :
    exec .bitcnt s = .next (s.answered { status := .ok, result := s.writer.bitCount, data := none }) := rfl
theorem exec_data (s : State) :
    exec .data s = .next (s.answered { status := .ok, result := 0, data := some s.writer.buffer.bytes }) := rfl

/-! ### What a command with valid operands does -/

/-- A next state of `s` reached by writing `n` bits: they were in range, they stand appended, and nothing else of the
machine is touched but the response. -/
structure Appended (s t : State) (n : Nat) : Prop where
  room : s.RoomFor n
  writer : ∃ v, t.writer = s.writer.appendBits v n
  input : t.input = s.input
  config : t.config = s.config

theorem commit_appended {n v : Nat} {ws : WriterState} {s t : State} (hws : ws = s.writer.appendBits v n)
    (h : commit n ws s = .next t) : Appended s t n := by
  obtain ⟨hr, rfl⟩ := commit_eq_next h
  exact ⟨hr, ⟨v, hws⟩, rfl, rfl⟩

theorem writeBits_appended {s t : State} (hc : s.writer.CacheClean) {v : Word} {w m : Byte}
    (hw : ¬ (m.toNat < w.toNat ∨ 64 < w.toNat)) (h : writeBits v w m s = .next t) : Appended s t w.toNat := by
  rw [writeBits_of_supported (by omega)] at h
  exact commit_appended (packBits_eq hc v _) h

theorem writeSigned_appended {s t : State} (hc : s.writer.CacheClean) {v : Word} {w m : Byte}
    (hw : ¬ (m.toNat < w.toNat ∨ 64 < w.toNat)) (h : writeSigned v w m s = .next t) : Appended s t w.toNat := by
  have hr := (commit_eq_next ((writeSigned_of_supported (by omega) v s).symm.trans h)).1
  rw [writeSigned_eq hc v (by omega) hr] at h
  cases h
  exact ⟨hr, ⟨_, rfl⟩, rfl, rfl⟩

theorem alignTo_appended {s t : State} (hc : s.writer.CacheClean) {k : BitVec 32} (hk : k ≠ 0)
    (h : alignTo k s = .next t) : Appended s t (padTo s.writer.bitCount.toNat k.toNat) := by
  rw [alignTo_of_pos hk] at h
  exact commit_appended (skipBits_eq hc _) h

/-- Every command with valid operands that answers a next state has appended its bits (R67, R120, R124, R129), and
done nothing else. -/
theorem exec_appended {i : Instr} {s t : State} (hc : s.writer.CacheClean) (hi : errorOf i = none)
    (h : exec i s = .next t) : Appended s t (bitsWritten i s) := by
  cases i with
  | wub v w m => exact writeBits_appended (v := v) (m := m) hc (by simpa [errorOf] using hi) h
  | wsb v w m => exact writeSigned_appended (v := v) (m := m) hc (by simpa [errorOf] using hi) h
  | wbool v w => exact writeBits_appended (v := boolValue v) (m := 1) hc (by simp [errorOf] at hi ⊢; omega) h
  | wu8 v w => exact writeBits_appended (v := zextValue v) (m := 8) hc (by simp [errorOf] at hi ⊢; omega) h
  | wu16 v w => exact writeBits_appended (v := zextValue v) (m := 16) hc (by simp [errorOf] at hi ⊢; omega) h
  | wu32 v w => exact writeBits_appended (v := zextValue v) (m := 32) hc (by simp [errorOf] at hi ⊢; omega) h
  | wu64 v w => exact writeBits_appended (v := v) (m := 64) hc (by simp [errorOf] at hi ⊢; omega) h
  | wi8 v w => exact writeSigned_appended (v := sextValue v) (m := 8) hc (by simp [errorOf] at hi ⊢; omega) h
  | wi16 v w => exact writeSigned_appended (v := sextValue v) (m := 16) hc (by simp [errorOf] at hi ⊢; omega) h
  | wi32 v w => exact writeSigned_appended (v := sextValue v) (m := 32) hc (by simp [errorOf] at hi ⊢; omega) h
  | wi64 v w => exact writeSigned_appended (v := v) (m := 64) hc (by simp [errorOf] at hi ⊢; omega) h
  | skip n => exact commit_appended (skipBits_eq hc _) h
  | align k => exact alignTo_appended hc (by rintro rfl; simp [errorOf] at hi) h
  | wbytes bs => exact commit_appended (appendBytes_eq hc bs) h
  | close => exact alignTo_appended (k := 1) hc (by decide) h
  | bitcnt => cases h; exact ⟨room_zero s, ⟨0, (appendBits_zero hc 0).symm⟩, rfl, rfl⟩
  | data => cases h; exact ⟨room_zero s, ⟨0, (appendBits_zero hc 0).symm⟩, rfl, rfl⟩

end Sys2Proof.Machine
end

