-- ==== Sys2Proof/Laws/PerInstr.lean ====
section
/-! SUPPORT. The family `EncodeShape`: the bytes of a command begin with its opcode (spec/30_encoding.md R82) and are 11, or
11 and the payload's for WBYTES (R81, R86). -/

namespace Sys2Proof.Laws.EncodeShape

/-- The length of a command follows from its constructor, and its first byte is its opcode. -/
def Statement (i : Instr) : Prop :=
  (encode i).head? = some (opcodeOf i) ∧ (encode i).length = 11 + (payloadOf i).length

theorem wu8 (value : BitVec 8) (width : Byte) : Statement (.wu8 value width) := ⟨rfl, rfl⟩
theorem wu16 (value : BitVec 16) (width : Byte) : Statement (.wu16 value width) := ⟨rfl, rfl⟩
theorem wu32 (value : BitVec 32) (width : Byte) : Statement (.wu32 value width) := ⟨rfl, rfl⟩
theorem wu64 (value : BitVec 64) (width : Byte) : Statement (.wu64 value width) := ⟨rfl, rfl⟩
theorem wi8 (value : BitVec 8) (width : Byte) : Statement (.wi8 value width) := ⟨rfl, rfl⟩
theorem wi16 (value : BitVec 16) (width : Byte) : Statement (.wi16 value width) := ⟨rfl, rfl⟩
theorem wi32 (value : BitVec 32) (width : Byte) : Statement (.wi32 value width) := ⟨rfl, rfl⟩
theorem wi64 (value : BitVec 64) (width : Byte) : Statement (.wi64 value width) := ⟨rfl, rfl⟩
theorem wbool (value : Bool) (width : Byte) : Statement (.wbool value width) := ⟨rfl, rfl⟩
theorem wub (value : Word) (width maxWidth : Byte) : Statement (.wub value width maxWidth) := ⟨rfl, rfl⟩
theorem wsb (value : Word) (width maxWidth : Byte) : Statement (.wsb value width maxWidth) := ⟨rfl, rfl⟩
theorem skip (n : Word) : Statement (.skip n) := ⟨rfl, rfl⟩
theorem align (alignmentBytes : BitVec 32) : Statement (.align alignmentBytes) := ⟨rfl, rfl⟩
theorem wbytes (bytes : List Byte) : Statement (.wbytes bytes) :=
  ⟨rfl, by rw [encode, List.length_append, bytesOfCmd_length]⟩
theorem close : Statement .close := ⟨rfl, rfl⟩
theorem bitcnt : Statement .bitcnt := ⟨rfl, rfl⟩
theorem data : Statement .data := ⟨rfl, rfl⟩

end Sys2Proof.Laws.EncodeShape
end

