-- ==== Sys2Proof/Tests/Slice0.lean ====
section
/-! SUPPORT. The model's own tests: words written out from spec/95_test_vectors.md section 2.7, single commands from its
sections 2.1 to 2.8, the check of WellFormed, and for every obligation with hypotheses a state and operands that meet them. -/

namespace Sys2Proof.Tests

open Sys2Proof Sys2Proof.Machine

/-! ### Building small states -/

/-- A writer as the vectors write it: `[bytes] bc=.. cache=0x.. p=..`. -/
def writerOf (bytes : List Byte) (bitCount : Nat) (cache : Byte) (pending : Fin 8) : WriterState :=
  { buffer := Memory.pushAll [] bytes, bitCount := BitVec.ofNat 64 bitCount, cache := cache, pendingBits := pending }

/-- A state with that writer, nothing issued and no response. -/
def stateOf (bytes : List Byte) (bitCount : Nat) (cache : Byte) (pending : Fin 8) : State :=
  { State.reset with writer := writerOf bytes bitCount cache pending }

/-- `[] bc=3 cache=0xA0 p=3`, the vectors' usual unaligned start. -/
def three : State := stateOf [] 3 0xA0 3

/-- `[12 34] bc=16 cache=0x00 p=0`, an aligned start. -/
def two : State := stateOf [0x12, 0x34] 16 0 0

/-- The start of X5 to X8: `bit_count = 2^64 - 4`, `pending_bits = 4`. -/
def nearFull : State := stateOf [] (2 ^ 64 - 4) 0 4

/-- The start of X12 and X13: reset with BUF_CAP = 4. -/
def capFour : State := { State.reset with config := { bufCap := some 4 } }

/-- The state in which the caller has issued these inputs. -/
def State.issuing (s : State) (input : List Input) : State := { s with input := input }

/-- The command succeeds and leaves this writer. -/
def Leaves (i : Instr) (s : State) (bytes : List Byte) (bitCount : Nat) (cache : Byte) (pending : Fin 8) : Prop :=
  nextState? (exec i s) = some (s.done (writerOf bytes bitCount cache pending))

/-- The command fails with this error and leaves the writer. -/
def Fails (i : Instr) (s : State) (e : ErrorKind) : Prop := nextState? (exec i s) = some (s.failed e)

theorem next_of_nextState {o : Host.Outcome State Fault Refusal} {t : State} (h : nextState? o = some t) : o = .next t := by
  cases o <;> simp_all [nextState?]

theorem room_of_unbounded {s : State} {n : Nat} (hc : s.config.bufCap = none) (h : s.writer.bitCount.toNat + n ≤ 2 ^ 64 - 1) :
    s.RoomFor n := ⟨h, fun cap hcap => by rw [hc] at hcap; cases hcap⟩

/-! ### Decoding: every constructor, by a word of the vectors -/

theorem test_decode_wu8 : decode [0x10, 0x08, 0, 0, 0, 0, 0, 0, 0, 0, 0xAB] = .instr (.wu8 171 8) := by decide
theorem test_decode_wu16 : decode [0x11, 0x0C, 0, 0, 0, 0, 0, 0, 0, 0x12, 0x34] = .instr (.wu16 0x1234 12) := by decide
theorem test_decode_wu32 : decode [0x12, 0x1C, 0, 0, 0, 0, 0, 0x0A, 0xAA, 0xAA, 0xAA] = .instr (.wu32 0xAAAAAAA 28) := by decide
theorem test_decode_wu64 :
    decode [0x13, 0x40, 0, 0xFF, 0xFF, 0xFF, 0xFF, 0xFF, 0xFF, 0xFF, 0xFF] = .instr (.wu64 0xFFFFFFFFFFFFFFFF 64) := by decide
theorem test_decode_wi8 : decode [0x14, 0x04, 0, 0, 0, 0, 0, 0, 0, 0, 0x90] = .instr (.wi8 (BitVec.ofInt 8 (-112)) 4) := by decide
theorem test_decode_wi16 :
    decode [0x15, 0x10, 0, 0, 0, 0, 0, 0, 0, 0xFF, 0xFE] = .instr (.wi16 (BitVec.ofInt 16 (-2)) 16) := by decide
theorem test_decode_wi32 :
    decode [0x16, 0x1C, 0, 0, 0, 0, 0, 0xFE, 0xAA, 0xAA, 0xAA] = .instr (.wi32 (BitVec.ofInt 32 (-22369622)) 28) := by decide
theorem test_decode_wi64 :
    decode [0x17, 0x40, 0, 0x80, 0, 0, 0, 0, 0, 0, 0] = .instr (.wi64 (BitVec.ofInt 64 (-9223372036854775808)) 64) := by decide
theorem test_decode_wbool :
    decode [0x18, 0x01, 0, 0, 0, 0, 0, 0, 0, 0, 1] = .instr (.wbool true 1) ∧
    decode [0x18, 0x01, 0, 0xFF, 0xFF, 0xFF, 0xFF, 0xFF, 0xFF, 0xFF, 0xFE] = .instr (.wbool false 1) := by decide
theorem test_decode_wub : decode [0x20, 0x41, 0xC8, 0, 0, 0, 0, 0, 0, 0, 1] = .instr (.wub 1 65 200) := by decide
theorem test_decode_wsb :
    decode [0x21, 0x03, 0x40, 0xFF, 0xFF, 0xFF, 0xFF, 0xFF, 0xFF, 0xFF, 0xFD] = .instr (.wsb (BitVec.ofInt 64 (-3)) 3 64) := by decide
theorem test_decode_skip :
    decode [0x30, 0, 0, 0, 0, 0, 0, 0, 0, 0, 0x82] = .instr (.skip 130) ∧
    decode [0x30, 0, 0, 0xFF, 0xFF, 0xFF, 0xFF, 0xFF, 0xFF, 0xFF, 0xFF] = .instr (.skip 0xFFFFFFFFFFFFFFFF) := by decide
theorem test_decode_align :
    decode [0x31, 0, 0, 0, 0, 0, 0, 0, 0, 0, 4] = .instr (.align 4) ∧
    decode [0x31, 0, 0, 0, 0, 0, 1, 0, 0, 0, 0] = .instr (.align 0) := by decide
theorem test_decode_wbytes :
    decode [0x32, 0, 0, 0, 0, 0, 0, 0, 0, 0, 2, 0xAB, 0xCD] = .instr (.wbytes [0xAB, 0xCD]) ∧
    decode [0x32, 0, 0, 0, 0, 0, 0, 0, 0, 0, 0] = .instr (.wbytes []) := by decide
theorem test_decode_close : decode [0x33, 0x40, 0x40, 0xFF, 0xFF, 0xFF, 0xFF, 0xFF, 0xFF, 0xFF, 0xFF] = .instr .close := by decide
theorem test_decode_bitcnt : decode [0x40, 0, 0, 0, 0, 0, 0, 0, 0, 0, 0] = .instr .bitcnt := by decide
theorem test_decode_data : decode [0x41, 0, 0, 0, 0, 0, 0, 0, 0, 0, 0] = .instr .data := by decide

/-- X1 to X4: reserved opcodes (R90). -/
theorem test_decode_reserved : ∀ op ∈ [0x00#8, 0x19#8, 0x34#8, 0xFF#8],
    decode [op, 0, 0, 0, 0, 0, 0, 0, 0, 0, 0] = .rejected (.reserved op) := by decide

/-- The encoder writes the assembler's bytes (E15, E24). -/
theorem test_encode :
    encode (.wsb (BitVec.ofInt 64 (-3)) 3 64) = [0x21, 0x03, 0x40, 0xFF, 0xFF, 0xFF, 0xFF, 0xFF, 0xFF, 0xFF, 0xFD] ∧
    encode (.wbytes [0xAB, 0xCD]) = [0x32, 0, 0, 0, 0, 0, 0, 0, 0, 0, 2, 0xAB, 0xCD] := by decide

/-- The one check of WellFormed: a payload whose length does not fit the operand field is refused, from 2^64 bytes on. -/
theorem test_wellFormed_refuses_overlong_payload (n : Nat) (h : 2 ^ 64 ≤ n) : wellFormed (.wbytes (List.replicate n 0)) = false := by
  simp only [wellFormed, List.length_replicate]
  exact decide_eq_false (by omega)

/-- The shortest ill-formed command. -/
theorem test_wellFormed_refuses_shortest : wellFormed (.wbytes (List.replicate (2 ^ 64) 0)) = false :=
  test_wellFormed_refuses_overlong_payload (2 ^ 64) (Nat.le_refl _)

/-! ### Steps -/

/-- The word of E1 in the opcode table's numbering is decoded and run as the first command after reset (V66). -/
theorem test_first_command_after_reset :
    decodeTableWord 88 0x10080000000000000000AB = some (.wu8 171 8) ∧
    nextState? (step (State.reset.withFetchWord 88 0x10080000000000000000AB)) = some (State.reset.done (writerOf [0xAB] 8 0 0)) := by
  decide

/-- A reset between two commands empties the writer and leaves the caller's next command issued (R170). -/
theorem test_reset_between_commands :
    nextState? (step (State.issuing three [.reset, .command (encode .bitcnt)])) =
      some (State.issuing State.reset [.command (encode .bitcnt)]) := by decide

/-! ### Commands, each from one row of the vectors -/

/-- V68. -/
theorem test_wu8_too_wide : Fails (.wu8 171 9) State.reset .unsupportedWidth := by unfold Fails; decide
/-- V69. -/
theorem test_wu8_unaligned : Leaves (.wu8 255 8) three [0xBF] 11 0xE0 3 := by unfold Leaves; decide
/-- V71. -/
theorem test_wu16 : Leaves (.wu16 0x1234 12) State.reset [0x23] 12 0x40 4 := by unfold Leaves; decide
/-- V74. -/
theorem test_wu32 : Leaves (.wu32 0xAAAAAAA 28) State.reset [0xAA, 0xAA, 0xAA] 28 0xA0 4 := by unfold Leaves; decide
/-- V78. -/
theorem test_wu64 : Leaves (.wu64 0 64) three [0xA0, 0, 0, 0, 0, 0, 0, 0] 67 0 3 := by unfold Leaves; decide
/-- V81: the forced sign bit. -/
theorem test_wi8_fold : Leaves (.wi8 (BitVec.ofInt 8 (-112)) 4) State.reset [] 4 0x80 4 := by unfold Leaves; decide
/-- V83. -/
theorem test_wi8_too_wide : Fails (.wi8 (BitVec.ofInt 8 (-1)) 9) State.reset .unsupportedWidth := by unfold Fails; decide
/-- V86. -/
theorem test_wi16 : Leaves (.wi16 (BitVec.ofInt 16 (-2)) 4) State.reset [] 4 0xE0 4 := by unfold Leaves; decide
/-- V89. -/
theorem test_wi32 : Leaves (.wi32 (BitVec.ofInt 32 (-22369622)) 28) State.reset [0xEA, 0xAA, 0xAA] 28 0xA0 4 := by
  unfold Leaves; decide
/-- V93: no fold at width 64. -/
theorem test_wi64 : Leaves (.wi64 (BitVec.ofInt 64 (-9223372036854775808)) 64) State.reset [0x80, 0, 0, 0, 0, 0, 0, 0] 64 0 0 := by
  unfold Leaves; decide
/-- V63. -/
theorem test_wbool_too_wide : Fails (.wbool true 2) State.reset .unsupportedWidth := by unfold Fails; decide
/-- V65. -/
theorem test_wbool_completes_byte : Leaves (.wbool true 1) (stateOf [] 7 0xAA 7) [0xAB] 8 0 0 := by unfold Leaves; decide
/-- V14. -/
theorem test_wub_crosses_bytes :
    Leaves (.wub 0x123456789ABCDEF 64 64) (stateOf [] 7 0xAA 7) [0xAA, 0x02, 0x46, 0x8A, 0xCF, 0x13, 0x57, 0x9B] 71 0xDE 7 := by
  unfold Leaves; decide
/-- V30: a width above 64 fails whatever `max_width` is. -/
theorem test_wub_above_64 : Fails (.wub 1 65 200) State.reset .unsupportedWidth := by unfold Fails; decide
/-- V45: out of range of the width, the mechanism binds. -/
theorem test_wsb_out_of_range : Leaves (.wsb (BitVec.ofInt 64 (-200)) 8 64) State.reset [0xB8] 8 0 0 := by unfold Leaves; decide
/-- V52: width 0 with a negative value. -/
theorem test_wsb_width_zero : Leaves (.wsb (BitVec.ofInt 64 (-5)) 0 64) State.reset [] 0 0 0 := by unfold Leaves; decide
/-- V107. -/
theorem test_skip_chunks : Leaves (.skip 130) State.reset (List.replicate 16 0) 130 0 2 := by unfold Leaves; decide
/-- V103. -/
theorem test_skip_in_cache : Leaves (.skip 4) three [] 7 0xA0 7 := by unfold Leaves; decide
/-- V117. -/
theorem test_align : Leaves (.align 4) (stateOf [0xDE, 0xAD, 0xBE, 0xEF] 33 0x80 1)
    [0xDE, 0xAD, 0xBE, 0xEF, 0x80, 0, 0, 0] 64 0 0 := by unfold Leaves; decide
/-- V112. -/
theorem test_align_zero : Fails (.align 0) three .invalidArgument := by unfold Fails; decide
/-- V121, the fast path. -/
theorem test_wbytes_aligned : Leaves (.wbytes [0xAB, 0xCD]) State.reset [0xAB, 0xCD] 16 0 0 := by unfold Leaves; decide
/-- V122, the slow path. -/
theorem test_wbytes_unaligned : Leaves (.wbytes [0xAB, 0xCD]) three [0xB5, 0x79] 19 0xA0 3 := by unfold Leaves; decide
/-- V132. -/
theorem test_close : Leaves .close (stateOf [] 7 0xAA 7) [0xAA] 8 0 0 := by unfold Leaves; decide
/-- V142. -/
theorem test_bitcnt : nextState? (exec .bitcnt (stateOf [0xAB] 11 0xA0 3)) =
    some ((stateOf [0xAB] 11 0xA0 3).answered { status := .ok, result := 11, data := none }) := by decide
/-- V142: the pending bits are not in DATA. -/
theorem test_data : nextState? (exec .data (stateOf [0xAB] 11 0xA0 3)) =
    some ((stateOf [0xAB] 11 0xA0 3).answered { status := .ok, result := 0, data := some [0xAB] }) := by decide

/-- X5, X6, X7: the range test on `bit_count` comes after validation. -/
theorem test_counter_range :
    Leaves (.wub 0 3 64) nearFull [] (2 ^ 64 - 1) 0 7 ∧ exec (.wub 0 4 64) nearFull = .refused .bitCountOverflow ∧
    Fails (.wub 0 65 64) nearFull .unsupportedWidth ∧ exec .close nearFull = .refused .bitCountOverflow :=
  ⟨by unfold Leaves; decide, rfl, by unfold Fails; decide, rfl⟩

/-- X12, X13: BUF_CAP. -/
theorem test_capacity_range :
    exec (.wu64 0 64) capFour = .refused .bufferFull ∧
    nextState? (exec (.wu32 0 32) capFour) = some (capFour.done (writerOf [0, 0, 0, 0] 32 0 0)) := ⟨rfl, by decide⟩

/-! ### Witnesses: the hypotheses of the obligations are met -/

theorem three_inv : three.writer.Inv := ⟨by decide, by decide, by unfold WriterState.CacheClean; decide, by decide⟩

theorem two_inv : two.writer.Inv := ⟨by decide, by decide, by unfold WriterState.CacheClean; decide, by decide⟩

theorem reset_inv : WriterState.reset.Inv := ⟨by decide, by decide, by unfold WriterState.CacheClean; decide, by decide⟩

theorem three_room {n : Nat} (h : n ≤ 2 ^ 64 - 4) : three.RoomFor n :=
  room_of_unbounded rfl (by have : three.writer.bitCount.toNat = 3 := rfl; omega)

theorem two_room {n : Nat} (h : n ≤ 2 ^ 64 - 17) : two.RoomFor n :=
  room_of_unbounded rfl (by have : two.writer.bitCount.toNat = 16 := rfl; omega)

/-- At the very end of the counter's range there is still room for three bits, and for no fourth. -/
theorem nearFull_room : nearFull.RoomFor 3 ∧ ¬ nearFull.RoomFor 4 :=
  ⟨room_of_unbounded rfl (by decide), fun h => absurd h.counter (by decide)⟩

/-- At the end of the capacity there is room for 39 bits, which push four bytes, and not for 40, which push five. -/
theorem capFour_room : capFour.RoomFor 39 ∧ ¬ capFour.RoomFor 40 :=
  ⟨⟨by decide, fun cap h => by cases h; exact .inr (by decide)⟩, fun h => absurd (h.buffer 4 rfl) (by decide)⟩

theorem witness_EncodedCommandsDecodeBack : wellFormed (.wbytes [0xAB, 0xCD]) = true := by decide

theorem witness_AcceptedBytesAreOneWholeCommand :
    decode [0x32, 0, 0, 0, 0, 0, 0, 0, 0, 0, 2, 0xAB, 0xCD] = .instr (.wbytes [0xAB, 0xCD]) := by decide

theorem witness_OperandsAreReadFromTheirFields :
    2 = numberOfBytes [0, 0, 0, 0, 0, 0, 0, 2] ∧ [0xAB#8, 0xCD#8].length = 2 ∧
    2 ^ 64 - 1 = numberOfBytes [0xFF, 0xFF, 0xFF, 0xFF, 0xFF, 0xFF, 0xFF, 0xFF] := by decide

/-- The ends of R90's ranges, and of the ranges of opcodes between them. -/
theorem witness_ReservedOpcodesAreRefused :
    10 ≤ [0#8, 0, 0, 0, 0, 0, 0, 0, 0, 0].length ∧
    (∀ op ∈ [0x00#8, 0x0F#8, 0x19#8, 0x1F#8, 0x22#8, 0x2F#8, 0x34#8, 0x3F#8, 0x42#8, 0xFF#8],
      decode [op, 0, 0, 0, 0, 0, 0, 0, 0, 0, 0] = .rejected (.reserved op)) ∧
    (∀ op ∈ [0x10#8, 0x18#8, 0x20#8, 0x21#8, 0x30#8, 0x33#8, 0x40#8, 0x41#8],
      decode [op, 0, 0, 0, 0, 0, 0, 0, 0, 0, 0] ≠ .rejected (.reserved op)) ∧
    (State.issuing three [.command [0x42, 0, 0, 0, 0, 0, 0, 0, 0, 0, 0]]).input = .command (0x42 :: [0, 0, 0, 0, 0, 0, 0, 0, 0, 0]) :: [] := by
  decide

theorem witness_MismatchedPayloadsAreRejected :
    [0x10#8, 0, 0, 0, 0, 0, 0, 0, 0, 0].length < 11 ∧ [0xAB#8].length < numberOfBytes [0, 0, 0, 0, 0, 0, 0, 2] ∧
    numberOfBytes [0, 0, 0, 0, 0, 0, 0, 2] < [0xAB#8, 0xCD, 0xEF].length ∧ wellFormed .close = true ∧ [0#8] ≠ [] := by decide

theorem witness_StepPerformsTheIssuedCommand :
    (State.issuing three [.command (encode .close)]).input = .command (encode .close) :: [] ∧ decode (encode .close) = .instr .close := by
  decide

theorem witness_StepRefusesWhatIsNoCommand :
    three.input = [] ∧ (State.issuing three [.command []]).input = .command [] :: [] ∧ decode [] = .rejected .incomplete ∧
    decode (encode .close ++ [0]) = .rejected .excess ∧
    decode [0x42, 0, 0, 0, 0, 0, 0, 0, 0, 0, 0] = .rejected (.reserved 0x42) := by decide

theorem witness_ResetInputEmptiesTheWriter : (State.issuing three [.reset]).input = .reset :: [] := rfl

theorem witness_EveryCommandIsLegalAfterReset :
    State.reset.writer = WriterState.reset ∧ capFour.writer = WriterState.reset ∧ (1 : BitVec 32) ≠ 0 ∧
    capFour.RoomFor (bitsWritten (.wub 5 39 64) capFour) := ⟨rfl, rfl, by decide, capFour_room.1⟩

theorem witness_EveryCommandKeepsTheFourInvariants :
    three.writer.Inv ∧ exec (.wu8 255 8) three = .next (three.done (writerOf [0xBF] 11 0xE0 3)) :=
  ⟨three_inv, next_of_nextState test_wu8_unaligned⟩

theorem witness_EveryStepKeepsTheInvariants :
    (State.issuing three [.command (encode .close)]).Inv ∧
    step (State.issuing three [.command (encode .close)]) = .next (three.done (writerOf [0xA0] 8 0 0)) :=
  ⟨⟨three_inv, fun _ h => by cases h⟩, next_of_nextState (by decide)⟩

/-- One bit inside the buffer and the last one, in the cache. -/
theorem witness_StreamBitsStandWhereTheyBelong :
    (writerOf [0xAB] 11 0xA0 3).Inv ∧ (writerOf [0xAB] 11 0xA0 3).buffer.readByte (7 / 8) = some 0xAB ∧
    10 < (writerOf [0xAB] 11 0xA0 3).bitCount.toNat ∧ (writerOf [0xAB] 11 0xA0 3).buffer.length ≤ 10 / 8 :=
  ⟨⟨by decide, by decide, by unfold WriterState.CacheClean; decide, by decide⟩, by decide, by decide, by decide⟩

/-- One field of twelve bits, and the same bits by two fields. -/
theorem witness_StreamDeterminesTheWriter :
    three.writer.Inv ∧ (writerOf [] 3 0xA0 3).Inv ∧ three.writer.stream = (writerOf [] 3 0xA0 3).stream :=
  ⟨three_inv, three_inv, rfl⟩

theorem witness_UnsignedWriteIsTheClosedForm :
    three.writer.Inv ∧ (64 : Byte).toNat ≤ (255 : Byte).toNat ∧ (64 : Byte).toNat ≤ 64 ∧ three.RoomFor (64 : Byte).toNat :=
  ⟨three_inv, by decide, by decide, three_room (by decide)⟩

theorem witness_UnsignedWriteAppendsMostSignificantFirst :
    three.writer.Inv ∧ (9 : Byte).toNat ≤ (9 : Byte).toNat ∧ (9 : Byte).toNat ≤ 64 ∧ three.RoomFor (9 : Byte).toNat ∧
    8 < (9 : Byte).toNat := ⟨three_inv, by decide, by decide, three_room (by decide), by decide⟩

/-- Each clause: width above `max_width`, width above 64, width 0, the largest width, and a success. -/
theorem witness_WidthContractOfTheGenericWrites :
    ((8 : Byte).toNat < (9 : Byte).toNat) ∧ (64 < (65 : Byte).toNat) ∧ ((0 : Byte) = 0) ∧
    ¬ ((64 : Byte).toNat < (64 : Byte).toNat ∨ 64 < (64 : Byte).toNat) ∧ Leaves (.wub 15 4 4) three [] 7 0xBE 7 ∧
    Leaves (.wsb 15 4 4) three [] 7 0xBE 7 := by unfold Leaves; decide

/-- The largest width that fits (V6), on a clean cache. -/
theorem witness_BitsThatFitAreMergedIntoTheCache :
    1 ≤ (4 : Byte).toNat ∧ (4 : Byte).toNat ≤ (64 : Byte).toNat ∧ three.writer.pendingBits.val + (4 : Byte).toNat < 8 ∧
    three.RoomFor (4 : Byte).toNat ∧ three.writer.CacheClean :=
  ⟨by decide, by decide, by decide, three_room (by decide), three_inv.clean⟩

/-- The least width that completes a byte (V7), and the greatest (V15), which emits eight. -/
theorem witness_BitsThatCompleteAByteAreEmitted :
    three.writer.Inv ∧ (5 : Byte).toNat ≤ (64 : Byte).toNat ∧ 8 ≤ three.writer.pendingBits.val + (5 : Byte).toNat ∧
    three.RoomFor (5 : Byte).toNat ∧ (64 : Byte).toNat ≤ (255 : Byte).toNat ∧ three.RoomFor (64 : Byte).toNat ∧
    7 < (three.writer.pendingBits.val + (64 : Byte).toNat) / 8 :=
  ⟨three_inv, by decide, by decide, three_room (by decide), by decide, three_room (by decide), by decide⟩

theorem witness_CounterGrowsByTheWidth :
    errorOf (.wub 15 4 64) = none ∧ exec (.wub 15 4 64) three = .next (three.done (writerOf [] 7 0xBE 7)) :=
  ⟨by decide, next_of_nextState (by decide)⟩

/-- -200 and 184 have one pattern at width 8. -/
theorem witness_ValuesAreMaskedAndWidthsAreChecked :
    1 ≤ (8 : Byte).toNat ∧ signedPattern (BitVec.ofInt 64 (-200)) 8 = signedPattern 184 8 ∧
    signedPattern ((-1 : BitVec 8).signExtend 64) 4 = signedPattern ((15 : BitVec 8).signExtend 64) 4 ∧
    (8 : Byte).toNat < (9 : Byte).toNat ∧ 64 < (65 : Byte).toNat := by decide

/-- In range, and a value at each end of the range of 8 bits and of 64. -/
theorem witness_SignedWriteAppendsTheFoldedPattern :
    three.writer.Inv ∧ (64 : Byte).toNat ≤ (64 : Byte).toNat ∧ three.RoomFor (64 : Byte).toNat ∧
    -(2 : Int) ^ (8 - 1) ≤ (BitVec.ofInt 64 (-128)).toInt ∧ (127 : Word).toInt < (2 : Int) ^ (8 - 1) ∧
    -(2 : Int) ^ (64 - 1) ≤ (BitVec.ofInt 64 (-9223372036854775808)).toInt :=
  ⟨three_inv, by decide, three_room (by decide), by decide, by decide, by decide⟩

theorem witness_TwoWritesAreOneWiderWrite :
    three.writer.Inv ∧ (60 : Byte).toNat + (4 : Byte).toNat ≤ 64 ∧ three.RoomFor ((60 : Byte).toNat + (4 : Byte).toNat) :=
  ⟨three_inv, by decide, three_room (by decide)⟩

/-- The first width that fails, for each size. -/
theorem witness_TypedWritersAreGenericWritesOfTheirSize :
    1 < (2 : Byte).toNat ∧ 8 < (9 : Byte).toNat ∧ 16 < (17 : Byte).toNat ∧ 32 < (33 : Byte).toNat ∧ 64 < (65 : Byte).toNat := by
  decide

/-- The native width of each size. -/
theorem witness_UnsignedTypedWritersAppendTheirBits :
    three.writer.Inv ∧ three.RoomFor (64 : Byte).toNat ∧ (1 : Byte).toNat ≤ 1 ∧ (8 : Byte).toNat ≤ 8 ∧ (16 : Byte).toNat ≤ 16 ∧
    (32 : Byte).toNat ≤ 32 ∧ (64 : Byte).toNat ≤ 64 :=
  ⟨three_inv, three_room (by decide), by decide, by decide, by decide, by decide, by decide⟩

theorem witness_SignedTypedWritersAppendTheirPattern :
    two.writer.Inv ∧ two.RoomFor (64 : Byte).toNat ∧ (8 : Byte).toNat ≤ 8 ∧ (16 : Byte).toNat ≤ 16 ∧ (32 : Byte).toNat ≤ 32 ∧
    (64 : Byte).toNat ≤ 64 :=
  ⟨two_inv, two_room (by decide), by decide, by decide, by decide, by decide⟩

theorem witness_SignedAndUnsignedAgreeWhereNothingIsFolded :
    0 ≤ (127 : BitVec 8).toInt ∧ 0 ≤ (0x7FFF : BitVec 16).toInt ∧ 0 ≤ (0 : BitVec 32).toInt ∧ 0 ≤ (1 : BitVec 64).toInt := by decide

theorem witness_ErrorsAreDecidedByTheOperandsAlone :
    errorOf (.wbool true 2) = some .unsupportedWidth ∧ errorOf (.align 0) = some .invalidArgument ∧
    errorOf (.align 1) = none ∧ exec (.align 1) three = .next (three.done (writerOf [0xA0] 8 0 0)) :=
  ⟨by decide, by decide, by decide, next_of_nextState (by decide)⟩

theorem witness_FailedCommandsLeaveNoTrace :
    errorOf (.align 0) ≠ none ∧ exec (.align 0) three = .next (three.failed .invalidArgument) := ⟨by decide, rfl⟩

/-- Each clause, at its boundary: in range, one bit past the counter, one byte past the capacity. -/
theorem witness_ValidCommandsCompleteExactlyInRange :
    errorOf (.skip 3) = none ∧ nearFull.RoomFor (bitsWritten (.skip 3) nearFull) ∧
    2 ^ 64 - 1 < nearFull.writer.bitCount.toNat + bitsWritten (.skip 4) nearFull ∧ capFour.config.bufCap = some 4 ∧
    capFour.writer.bitCount.toNat + bitsWritten (.skip 40) capFour ≤ 2 ^ 64 - 1 ∧
    0 < (capFour.writer.pendingBits.val + bitsWritten (.skip 40) capFour) / 8 ∧
    4 < capFour.writer.buffer.length + (capFour.writer.pendingBits.val + bitsWritten (.skip 40) capFour) / 8 :=
  ⟨by decide, nearFull_room.1, by decide, rfl, by decide, by decide, by decide⟩

theorem witness_EveryCommandHasOneOfFourOutcomes :
    errorOf (.wu64 0 65) = some .unsupportedWidth ∧ errorOf (.wu64 0 64) = none := by decide

theorem witness_ResponsesHaveTheSpecsFormat :
    exec .data two = .next (two.answered { status := .ok, result := 0, data := some [0x12, 0x34] }) := next_of_nextState (by decide)

/-- Inside the cache and at its edge. -/
theorem witness_SkipPushesTheCacheAndZeroBytes :
    three.writer.Inv ∧ three.RoomFor (4 : Word).toNat ∧ three.RoomFor (5 : Word).toNat ∧
    three.writer.pendingBits.val + (4 : Word).toNat < 8 ∧ ¬ three.writer.pendingBits.val + (5 : Word).toNat < 8 :=
  ⟨three_inv, three_room (by decide), three_room (by decide), by decide, by decide⟩

theorem witness_SkipIsThatManyOneBitWrites : three.writer.Inv ∧ three.RoomFor (13 : Word).toNat :=
  ⟨three_inv, three_room (by decide)⟩

/-- A padding ALIGN in range, one that fails, and both answers of the last two clauses. -/
theorem witness_AlignPadsWithTheComputedSkip :
    (4 : BitVec 32) ≠ 0 ∧ three.writer.Inv ∧ three.RoomFor (padTo three.writer.bitCount.toNat (4 : BitVec 32).toNat) ∧
    exec (.align 0) three = .next (three.failed .invalidArgument) ∧
    (three.failed .invalidArgument).response = some (Response.failed .invalidArgument) :=
  ⟨by decide, three_inv, three_room (by decide), rfl, rfl⟩

theorem witness_ThePadIsTheLeastThatReachesTheBoundary : (3 : BitVec 32) ≠ 0 ∧ ((3 : Word).toNat + 21) % (8 * (3 : BitVec 32).toNat) = 0 := by
  decide

/-- From an unaligned state, and from one already on the boundary (V118). -/
theorem witness_AlignEndsOnItsBoundary :
    three.writer.Inv ∧ (2 : BitVec 32) ≠ 0 ∧ exec (.align 2) three = .next (three.done (writerOf [0xA0, 0] 16 0 0)) ∧
    two.writer.Inv ∧ two.writer.bitCount.toNat % (8 * (2 : BitVec 32).toNat) = 0 :=
  ⟨three_inv, by decide, next_of_nextState (by decide), two_inv, by decide⟩

theorem witness_WriteBytesAppendsItsBytesOnBothPaths :
    three.writer.Inv ∧ three.RoomFor (8 * [0xAB#8, 0xCD].length) ∧ two.writer.Inv ∧ two.RoomFor (8 * [0xAB#8, 0xCD].length) :=
  ⟨three_inv, three_room (by decide), two_inv, two_room (by decide)⟩

theorem witness_WriteBytesFastPathCopiesTheBytes :
    two.writer.pendingBits = 0 ∧ two.RoomFor (8 * [0xAB#8, 0xCD].length) ∧ two.writer.Inv := ⟨by decide, two_room (by decide), two_inv⟩

theorem witness_WriteBytesSlowPathShiftsEachByte : three.writer.pendingBits ≠ 0 ∧ three.RoomFor 8 :=
  ⟨by decide, three_room (by decide)⟩

theorem witness_WriteBytesIsThatManyByteWrites : three.writer.Inv ∧ three.RoomFor (8 * [0xAB#8, 0xCD].length) :=
  ⟨three_inv, three_room (by decide)⟩

/-- An aligned state, an unaligned one in range, and a success. -/
theorem witness_CloseFlushesTheCache :
    two.writer.Inv ∧ two.writer.pendingBits = 0 ∧ three.writer.Inv ∧ three.writer.pendingBits ≠ 0 ∧
    three.RoomFor (8 - three.writer.pendingBits.val) ∧ exec .close three = .next (three.done (writerOf [0xA0] 8 0 0)) :=
  ⟨two_inv, by decide, three_inv, by decide, three_room (by decide), next_of_nextState (by decide)⟩

theorem witness_CloseIsIdempotent : three.writer.Inv ∧ exec .close three = .next (three.done (writerOf [0xA0] 8 0 0)) :=
  ⟨three_inv, next_of_nextState (by decide)⟩

theorem witness_FlushMakesTheBufferComplete :
    three.writer.Inv ∧ (2 : BitVec 32) ≠ 0 ∧ exec .close three = .next (three.done (writerOf [0xA0] 8 0 0)) ∧
    exec (.align 2) three = .next (three.done (writerOf [0xA0, 0] 16 0 0)) :=
  ⟨three_inv, by decide, next_of_nextState (by decide), next_of_nextState (by decide)⟩

theorem witness_DataReturnsTheWholeBuffer : two.writer.buffer.wf = true := by decide

theorem witness_AccessorsTellThePendingBits : two.writer.Inv ∧ two.writer.bitCount.toNat % 8 = 0 := ⟨two_inv, by decide⟩

/-- A write that pushes one byte leaves address 0 of `[12 34]` and every address from 3 on; a failure; an accessor. -/
theorem witness_CommandsLeaveTheRestAsItWas :
    two.writer.Inv ∧ errorOf (.wu8 0xFF 8) = none ∧ exec (.wu8 0xFF 8) two = .next (two.done (writerOf [0x12, 0x34, 0xFF] 24 0 0)) ∧
    1 < two.writer.buffer.length ∧ two.writer.buffer.length + (two.writer.pendingBits.val + bitsWritten (.wu8 0xFF 8) two) / 8 ≤ 3 ∧
    errorOf (.wu8 0xFF 9) ≠ none ∧ exec (.wu8 0xFF 9) two = .next (two.failed .unsupportedWidth) :=
  ⟨two_inv, by decide, next_of_nextState (by decide), by decide, by decide, by decide, rfl⟩

/-- WBYTES on both paths, and the widest write that pushes no byte. -/
theorem witness_RegistersTheCommandsKeep :
    three.writer.Inv ∧ exec (.wbytes [0xAB, 0xCD]) three = .next (three.done (writerOf [0xB5, 0x79] 19 0xA0 3)) ∧
    two.writer.pendingBits = 0 ∧ exec (.wbytes [0xAB]) two = .next (two.done (writerOf [0x12, 0x34, 0xAB] 24 0 0)) ∧
    exec (.skip 4) three = .next (three.done (writerOf [] 7 0xA0 7)) ∧ errorOf (.skip 4) = none ∧
    three.writer.pendingBits.val + bitsWritten (.skip 4) three < 8 :=
  ⟨three_inv, next_of_nextState (by decide), by decide, next_of_nextState (by decide), next_of_nextState (by decide), by decide,
    by decide⟩

theorem witness_ReadsAndNamedNoOpsChangeNothing :
    two.writer.Inv ∧ (2 : BitVec 32) ≠ 0 ∧ two.writer.bitCount.toNat % (8 * (2 : BitVec 32).toNat) = 0 ∧ two.writer.pendingBits = 0 ∧
    errorOf (.wbool true 1) = none ∧ bitsWritten (.wbool true 1) two ≠ 0 ∧
    exec (.wbool true 1) two = .next (two.done (writerOf [0x12, 0x34] 17 0x80 1)) :=
  ⟨two_inv, by decide, by decide, by decide, by decide, by decide, next_of_nextState (by decide)⟩

theorem witness_ByteAlignedFollowsTheCounter :
    three.writer.Inv ∧ (1 : BitVec 32) ≠ 0 ∧ exec .close three = .next (three.done (writerOf [0xA0] 8 0 0)) ∧
    exec (.align 1) three = .next (three.done (writerOf [0xA0] 8 0 0)) ∧
    exec (.wbytes [0xAB, 0xCD]) three = .next (three.done (writerOf [0xB5, 0x79] 19 0xA0 3)) :=
  ⟨three_inv, by decide, next_of_nextState (by decide), next_of_nextState (by decide), next_of_nextState (by decide)⟩

end Sys2Proof.Tests
end

section
/-! The invariants of spec/10_state.md R26 over every command: a failed command changes no writer (R150), so that whatever a
command answers, the writer of its next state is the old one with some bits appended. -/

namespace Sys2Proof.Machine

theorem of_ite_some_eq_some {p : Prop} [Decidable p] {a b : ErrorKind} (h : (if p then some a else none) = some b) :
    p ∧ a = b := by
  rwa [Option.ite_none_right_eq_some, Option.some.injEq] at h

/-- The shape of `errorOf`'s width clauses: the error they answer is the one the write raises (R61, R153). -/
theorem writeBits_of_error {w m : Byte} {p : Prop} [Decidable p] {e : ErrorKind}
    (h : (if p then some ErrorKind.unsupportedWidth else none) = some e) (hp : p → m.toNat < w.toNat ∨ 64 < w.toNat)
    (value : Word) (s : State) : writeBits value w m s = .next (s.failed e) := by
  obtain ⟨hw, rfl⟩ := of_ite_some_eq_some h
  exact writeBits_of_unsupported (hp hw) value s

/-- The same for the signed variant, which validates before it folds (R71). -/
theorem writeSigned_of_error {w m : Byte} {p : Prop} [Decidable p] {e : ErrorKind}
    (h : (if p then some ErrorKind.unsupportedWidth else none) = some e) (hp : p → m.toNat < w.toNat ∨ 64 < w.toNat)
    (value : Word) (s : State) : writeSigned value w m s = .next (s.failed e) := by
  obtain ⟨hw, rfl⟩ := of_ite_some_eq_some h
  exact writeSigned_of_unsupported (hp hw) value s

/-- Every command whose operands are in error answers that error, whatever the state, and changes only the response
(R150, R153). -/
theorem exec_of_errorOf_eq_some {i : Instr} {e : ErrorKind} (hi : errorOf i = some e) (s : State) :
    exec i s = .next (s.failed e) := by
  cases i with
  | wub v w m => exact writeBits_of_error hi id v s
  | wsb v w m => exact writeSigned_of_error hi id v s
  | wbool v w => exact writeBits_of_error (m := 1) hi .inl (boolValue v) s
  | wu8 v w => exact writeBits_of_error (m := 8) hi .inl (zextValue v) s
  | wu16 v w => exact writeBits_of_error (m := 16) hi .inl (zextValue v) s
  | wu32 v w => exact writeBits_of_error (m := 32) hi .inl (zextValue v) s
  | wu64 v w => exact writeBits_of_error (m := 64) hi .inl v s
  | wi8 v w => exact writeSigned_of_error (m := 8) hi .inl (sextValue v) s
  | wi16 v w => exact writeSigned_of_error (m := 16) hi .inl (sextValue v) s
  | wi32 v w => exact writeSigned_of_error (m := 32) hi .inl (sextValue v) s
  | wi64 v w => exact writeSigned_of_error (m := 64) hi .inl v s
  | align k =>
    obtain ⟨hk, rfl⟩ := of_ite_some_eq_some hi
    obtain rfl : k = 0 := BitVec.eq_of_toNat_eq hk
    exact alignTo_zero s
  | skip _ | wbytes _ | close | bitcnt | data => cases hi

/-- Whatever a command answers as its next state, the writer there is the old one with bits appended that were in range;
a failed command appends none. -/
theorem exec_writer_eq_appendBits {i : Instr} {s t : State} (hc : s.writer.CacheClean) (h : exec i s = .next t) :
    ∃ v n, s.RoomFor n ∧ t.writer = s.writer.appendBits v n := by
  cases hi : errorOf i with
  | none =>
    obtain ⟨hroom, ⟨v, hwriter⟩, -, -⟩ := exec_appended hc hi h
    exact ⟨v, bitsWritten i s, hroom, hwriter⟩
  | some e =>
    obtain rfl : s.failed e = t := by simpa [exec_of_errorOf_eq_some hi s] using h
    exact ⟨0, 0, room_zero s, (appendBits_zero hc 0).symm⟩

/-- Every command keeps the invariants of R26 that speak of one state, whatever its outcome. -/
theorem exec_keeps_writer_inv {i : Instr} {s t : State} (hinv : s.writer.Inv) (h : exec i s = .next t) : t.writer.Inv := by
  obtain ⟨v, n, hroom, hwriter⟩ := exec_writer_eq_appendBits hinv.clean h
  have hcounter := hroom.counter
  rw [hwriter]
  exact appendBits_inv hinv v n (by omega)

/-- Every command only appends to the buffer, R26 (d). -/
theorem exec_buffer_eq_pushAll {i : Instr} {s t : State} (hc : s.writer.CacheClean) (h : exec i s = .next t) :
    ∃ pushed : List Byte, t.writer.buffer = s.writer.buffer.pushAll pushed := by
  obtain ⟨v, n, -, hwriter⟩ := exec_writer_eq_appendBits hc h
  exact ⟨_, congrArg WriterState.buffer hwriter⟩

theorem reset_writer_inv : WriterState.reset.Inv := ⟨wf_nil, Fin.isLt _, rfl, rfl⟩

/-- Settles O13: a command's next state holds the old writer with some bits appended, and an append in range keeps the
invariants and only pushes bytes. -/
theorem everyCommandKeepsTheFourInvariants : Obligations.EveryCommandKeepsTheFourInvariants := by
  refine ⟨reset_writer_inv, fun i s t hinv h => ?_⟩
  obtain ⟨hwf, hpending, hclean, hcount⟩ := exec_keeps_writer_inv hinv h
  obtain ⟨pushed, hpushed⟩ := exec_buffer_eq_pushAll hinv.clean h
  exact ⟨hpending, hclean, hcount, hwf, pushed, hpushed, by rw [hpushed, pushAll_bytes]⟩

end Sys2Proof.Machine
end

section
/-! R47 over the commands: what writes no bit leaves the writer as it is, and what writes one moves `bit_count`. -/

namespace Sys2Proof.Machine

/-! ### The operations that write no bit -/

/-- A command that writes nothing is always in range (R23, R25), so it completes. -/
theorem commit_zero (ws : WriterState) (s : State) : commit 0 ws s = .next (s.done ws) := commit_of_room (room_zero s) ws

theorem writeBits_width_zero (v : Word) (m : Byte) (s : State) : writeBits v 0 m s = .next (s.done s.writer) := by
  rw [writeBits_of_supported ⟨Nat.zero_le _, Nat.zero_le _⟩]
  exact commit_zero s.writer s

theorem writeSigned_width_zero (v : Word) (m : Byte) (s : State) : writeSigned v 0 m s = .next (s.done s.writer) := by
  rw [writeSigned_of_supported ⟨Nat.zero_le _, Nat.zero_le _⟩]
  exact commit_zero s.writer s

theorem skipZeros_zero (s : State) : skipZeros 0 s = .next (s.done s.writer) := commit_zero s.writer s

theorem appendBytes_nil {ws : WriterState} (h : ws.CacheClean) : appendBytes [] ws = ws := by
  rw [appendBytes_eq h]
  exact appendBits_zero h _

/-- On the boundary the pad of R124 is zero: the outer remainder takes the full stride away. -/
theorem padTo_eq_zero {n k : Nat} (h : n % (8 * k) = 0) : padTo n k = 0 := by
  rw [padTo, h, Nat.sub_zero, Nat.mod_self]

theorem alignTo_on_boundary {k : BitVec 32} {s : State} (hk : k ≠ 0) (h : s.writer.bitCount.toNat % (8 * k.toNat) = 0) :
    alignTo k s = .next (s.done s.writer) := by
  rw [alignTo_of_pos hk, padTo_eq_zero h, skipZeros_zero]

/-- With no bit pending, R26 (c) puts the counter on a byte boundary. -/
theorem bitCount_mod_eight_of_no_pending {ws : WriterState} (hinv : ws.Inv) (hp : ws.pendingBits = 0) :
    ws.bitCount.toNat % 8 = 0 := by
  have hcounted := hinv.counted
  rw [hp, Fin.val_zero] at hcounted
  omega

/-! ### The commands that write a bit -/

/-- A command that appends `n` bits carries the counter `n` further, without wrapping (R23, R63). -/
theorem Appended.bitCount_toNat {s t : State} {n : Nat} (h : Appended s t n) :
    t.writer.bitCount.toNat = s.writer.bitCount.toNat + n := by
  obtain ⟨v, hwriter⟩ := h.writer
  have hcounter := h.room.counter
  simp only [hwriter, WriterState.appendBits, BitVec.toNat_add, BitVec.toNat_ofNat]
  omega

theorem Appended.writer_ne {s t : State} {n : Nat} (h : Appended s t n) (hn : n ≠ 0) : t.writer ≠ s.writer := by
  intro heq
  have hcount := h.bitCount_toNat
  rw [heq] at hcount
  omega

/-- Settles O52: an accessor answers from the writer, which it keeps; a command that writes a bit raises `bit_count`; and every
named no-op is one of the shared operations at zero bits. -/
theorem readsAndNamedNoOpsChangeNothing : Obligations.ReadsAndNamedNoOpsChangeNothing := by
  intro s hinv
  refine ⟨?reads, fun i t hi hn h => (exec_appended hinv.clean hi h).writer_ne hn,
    fun v m => writeBits_width_zero v m s, fun v m => writeSigned_width_zero v m s,
    fun v => writeBits_width_zero (boolValue v) 1 s,
    fun v => writeBits_width_zero (zextValue v) 8 s, fun v => writeBits_width_zero (zextValue v) 16 s,
    fun v => writeBits_width_zero (zextValue v) 32 s, fun v => writeBits_width_zero v 64 s,
    fun v => writeSigned_width_zero (sextValue v) 8 s, fun v => writeSigned_width_zero (sextValue v) 16 s,
    fun v => writeSigned_width_zero (sextValue v) 32 s, fun v => writeSigned_width_zero v 64 s,
    skipZeros_zero s, ?noBytes, fun k hk hboundary => alignTo_on_boundary hk hboundary, ?close⟩
  case reads =>
    rintro i (rfl | rfl)
    · exact ⟨_, exec_bitcnt s, rfl, rfl⟩
    · exact ⟨_, exec_data s, rfl, rfl⟩
  case noBytes =>
    rw [exec_wbytes, appendBytes_nil hinv.clean]
    exact commit_zero s.writer s
  case close =>
    intro hp
    exact alignTo_on_boundary (k := 1) (by decide) (bitCount_mod_eight_of_no_pending hinv hp)

end Sys2Proof.Machine
end

section
/-! The width contract of the primitive and of its signed variant (spec/40_core_write.md R61, R63): an unsupported width is the
error and writes nothing, width 0 writes nothing, and what passes validation answers OK and raises the counter by its width. -/

namespace Sys2Proof.Machine

/-- Validation that passes, in the form the laws of the two writes take it (R61). -/
theorem supported_of_not_unsupported {w m : Byte} (h : ¬ (m.toNat < w.toNat ∨ 64 < w.toNat)) :
    w.toNat ≤ m.toNat ∧ w.toNat ≤ 64 := by
  omega

/-- A typed writer checks its width against its native size alone, which is 64 at most (R100). -/
theorem supported_of_native {w m : Byte} (hm : m.toNat ≤ 64) (h : ¬ m.toNat < w.toNat) :
    w.toNat ≤ m.toNat ∧ w.toNat ≤ 64 := by
  omega

/-! ### The answer -/

/-- What `commit` answers is OK or no next state at all. -/
theorem commit_response {n : Nat} {ws : WriterState} {s t : State} (h : commit n ws s = .next t) :
    t.response = some Response.done := by
  obtain ⟨-, rfl⟩ := commit_eq_next h
  rfl

/-- Settles O19: the cases are those of the width, unsupported, zero, supported; each is one law of the two writes. -/
theorem widthContractOfTheGenericWrites : Obligations.WidthContractOfTheGenericWrites := by
  intro s v w m
  refine ⟨fun hbad => ?unsupported, ?zero, fun hok t => ?supported⟩
  case unsupported => exact ⟨writeBits_of_unsupported hbad v s, writeSigned_of_unsupported hbad v s⟩
  case zero =>
    rintro rfl
    exact ⟨writeBits_width_zero v m s, writeSigned_width_zero v m s⟩
  case supported =>
    have hw := supported_of_not_unsupported hok
    exact ⟨fun h => commit_response ((writeBits_of_supported hw v s).symm.trans h),
      fun h => commit_response ((writeSigned_of_supported hw v s).symm.trans h)⟩

/-! ### The counter -/

/-- A committed command whose writer counted `n` bits has raised the counter by `n` as a number, on any cache: the range test of
R23 lets no counter wrap. -/
theorem commit_bitCount_toNat {n : Nat} {ws : WriterState} {s t : State}
    (hcount : ws.bitCount = s.writer.bitCount + BitVec.ofNat 64 n) (h : commit n ws s = .next t) :
    t.writer.bitCount.toNat = s.writer.bitCount.toNat + n := by
  obtain ⟨hroom, rfl⟩ := commit_eq_next h
  have hcounter := hroom.counter
  rw [done_writer, hcount, BitVec.toNat_add, BitVec.toNat_ofNat]
  omega

theorem writeBits_bitCount_toNat {w m : Byte} (h : w.toNat ≤ m.toNat ∧ w.toNat ≤ 64) {v : Word} {s t : State}
    (hnext : writeBits v w m s = .next t) : t.writer.bitCount.toNat = s.writer.bitCount.toNat + w.toNat := by
  rw [writeBits_of_supported h] at hnext
  exact commit_bitCount_toNat (packBits_bitCount v w.toNat s.writer) hnext

theorem writeSigned_bitCount_toNat {w m : Byte} (h : w.toNat ≤ m.toNat ∧ w.toNat ≤ 64) {v : Word} {s t : State}
    (hnext : writeSigned v w m s = .next t) : t.writer.bitCount.toNat = s.writer.bitCount.toNat + w.toNat := by
  rw [writeSigned_of_supported h] at hnext
  refine commit_bitCount_toNat ?_ hnext
  split
  · next h0 => rw [h0]; exact (BitVec.add_zero _).symm
  · exact packBits_bitCount _ w.toNat s.writer

theorem not_of_ite_some_eq_none {p : Prop} [Decidable p] {e : ErrorKind} (h : (if p then some e else none) = none) : ¬ p := by
  rw [ite_eq_right_iff] at h
  exact fun hp => Option.some_ne_none e (h hp)

/-- Settles O22: every width-taking writer is the primitive or its signed variant on its own `max_width`. -/
theorem counterGrowsByTheWidth : Obligations.CounterGrowsByTheWidth := by
  intro i w s t hi hvalid h
  rcases hi with ⟨v, m, rfl⟩ | ⟨v, m, rfl⟩ | ⟨v, rfl⟩ | ⟨v, rfl⟩ | ⟨v, rfl⟩ | ⟨v, rfl⟩ | ⟨v, rfl⟩ |
    ⟨v, rfl⟩ | ⟨v, rfl⟩ | ⟨v, rfl⟩ | ⟨v, rfl⟩ <;> replace hvalid := not_of_ite_some_eq_none hvalid
  · exact writeBits_bitCount_toNat (supported_of_not_unsupported hvalid) h
  · exact writeSigned_bitCount_toNat (supported_of_not_unsupported hvalid) h
  · exact writeBits_bitCount_toNat (m := 1) (supported_of_native (by decide) hvalid) h
  · exact writeBits_bitCount_toNat (m := 8) (supported_of_native (by decide) hvalid) h
  · exact writeBits_bitCount_toNat (m := 16) (supported_of_native (by decide) hvalid) h
  · exact writeBits_bitCount_toNat (m := 32) (supported_of_native (by decide) hvalid) h
  · exact writeBits_bitCount_toNat (m := 64) (supported_of_native (by decide) hvalid) h
  · exact writeSigned_bitCount_toNat (m := 8) (supported_of_native (by decide) hvalid) h
  · exact writeSigned_bitCount_toNat (m := 16) (supported_of_native (by decide) hvalid) h
  · exact writeSigned_bitCount_toNat (m := 32) (supported_of_native (by decide) hvalid) h
  · exact writeSigned_bitCount_toNat (m := 64) (supported_of_native (by decide) hvalid) h

end Sys2Proof.Machine
end

section
/-! A write that completes no byte (spec/40_core_write.md R64): its bits, left-shifted, lie on bits of the cache that a clean
cache (spec/10_state.md R26 (b)) holds at zero. -/

namespace Sys2Proof.Machine

/-- A multiple of 2^n and a number below 2^n share no bit. -/
theorem mul_two_pow_and_eq_zero {x y n : Nat} (hy : y < 2 ^ n) : x * 2 ^ n &&& y = 0 := by
  apply Nat.eq_of_testBit_eq
  intro i
  rw [Nat.testBit_and, Nat.testBit_mul_two_pow, Nat.zero_testBit]
  rcases Nat.lt_or_ge i n with hlow | hhigh
  · simp [Nat.not_le.2 hlow]
  · rw [Nat.testBit_lt_two_pow (hy.trans_le (Nat.pow_le_pow_right (by omega) hhigh)), Bool.and_false]

/-- `n` bits behind `k` pending ones, shifted to the top of what is free, stay below the pending bits. -/
theorem shifted_lt_free {v k n : Nat} (hv : v < 2 ^ n) (hfit : k + n < 8) : v * 2 ^ (8 - (k + n)) < 2 ^ (8 - k) := by
  rw [show 8 - k = n + (8 - (k + n)) by omega, pow_add]
  exact Nat.mul_lt_mul_of_pos_right hv (by positivity)

/-- What fits in the free bits of the cache fits in a byte, so that the truncation to 8 bits loses nothing. -/
theorem toNat_ofNat_of_lt_free {x k : Nat} (hx : x < 2 ^ (8 - k)) : (BitVec.ofNat 8 x).toNat = x := by
  rw [BitVec.toNat_ofNat]
  exact Nat.mod_eq_of_lt (hx.trans_le (Nat.pow_le_pow_right (by omega) (by omega)))

theorem clean_cache_and_eq_zero {ws : WriterState} (h : ws.CacheClean) {x : Nat} (hx : x < 2 ^ (8 - ws.pendingBits.val)) :
    ws.cache &&& BitVec.ofNat 8 x = 0 := by
  apply BitVec.eq_of_toNat_eq
  rw [BitVec.toNat_and, toNat_ofNat_of_lt_free hx, ← clean_cache h, mul_two_pow_and_eq_zero hx]
  rfl

theorem clean_cache_or_toNat {ws : WriterState} (h : ws.CacheClean) {x : Nat} (hx : x < 2 ^ (8 - ws.pendingBits.val)) :
    (ws.cache ||| BitVec.ofNat 8 x).toNat = ws.cache.toNat + x := by
  rw [BitVec.toNat_or, toNat_ofNat_of_lt_free hx, ← clean_cache h, or_eq_add hx]

/-- The primitive when its bits fit in the cache (R62 to R64), on any writer. -/
theorem packBits_of_fit {v : Word} {n : Nat} {ws : WriterState} (hn : n ≠ 0) (hfit : ws.pendingBits.val + n < 8) :
    packBits v n ws =
      { buffer := ws.buffer
        bitCount := ws.bitCount + BitVec.ofNat 64 n
        cache := ws.cache ||| BitVec.ofNat 8 (v.toNat % 2 ^ n * 2 ^ (8 - (ws.pendingBits.val + n)))
        pendingBits := Fin.ofNat 8 (ws.pendingBits.val + n) } := by
  rw [packBits, if_neg hn, mergeBits, countBits_pendingBits, if_pos hfit, maskValue_eq, ← Nat.shiftLeft_eq]
  rfl

/-- Settles O20: the merge of R64 holds on every writer; the shifted bits are below the pending ones, which are all a clean cache
holds. -/
theorem bitsThatFitAreMergedIntoTheCache : Obligations.BitsThatFitAreMergedIntoTheCache := by
  intro s v w m hpos hmax hfit hroom newBits shifted
  have hshifted : shifted < 2 ^ (8 - s.writer.pendingBits.val) := shifted_lt_free (Nat.mod_lt _ (by positivity)) hfit
  refine ⟨?_, hshifted, fun hclean => ⟨clean_cache_and_eq_zero hclean hshifted, clean_cache_or_toNat hclean hshifted⟩⟩
  rw [exec_wub, writeBits_of_supported ⟨hmax, by omega⟩, commit_of_room hroom, packBits_of_fit (by omega) hfit]

end Sys2Proof.Machine
end

section
/-! The masking law (spec/40_core_write.md R72): the primitive reads the low `width` bits of its value only, and the signed
variant the folded pattern of R70. -/

namespace Sys2Proof.Machine

/-! ### The two writes -/

/-- The primitive as a command depends on the low `width` bits of its value only, whether the width is supported or not. -/
theorem writeBits_congr {v v' : Word} {w : Byte} (h : v.toNat % 2 ^ w.toNat = v'.toNat % 2 ^ w.toNat) (m : Byte) (s : State) :
    writeBits v w m s = writeBits v' w m s := by
  simp only [writeBits, packBits_congr s.writer h]

/-- The signed variant depends on the folded pattern of its value only. -/
theorem writeSigned_congr {v v' : Word} {w : Byte} (hw : 1 ≤ w.toNat) (h : signedPattern v w.toNat = signedPattern v' w.toNat)
    (m : Byte) (s : State) : writeSigned v w m s = writeSigned v' w m s := by
  by_cases hbad : m.toNat < w.toNat ∨ 64 < w.toNat
  · rw [writeSigned_of_unsupported hbad, writeSigned_of_unsupported hbad]
  · have hok := supported_of_not_unsupported hbad
    rw [← signFold_mod v hw hok.2, ← signFold_mod v' hw hok.2] at h
    rw [writeSigned_of_supported hok, writeSigned_of_supported hok, packBits_congr s.writer h]

/-! ### The values of the unsigned writers -/

/-- What is left of an `n`-bit value under a mask is an `n`-bit value. -/
theorem ofNat_mod_toNat {n : Nat} (v : BitVec n) (k : Nat) : (BitVec.ofNat n (v.toNat % k)).toNat = v.toNat % k := by
  rw [BitVec.toNat_ofNat, Nat.mod_eq_of_lt ((Nat.mod_le _ k).trans_lt v.isLt)]

theorem zextValue_toNat {n : Nat} (hn : n ≤ 64) (v : BitVec n) : (zextValue v).toNat = v.toNat :=
  BitVec.toNat_setWidth_of_le hn

/-- A value and its low `width` bits agree under the mask. -/
theorem value_mask {n : Nat} (v : BitVec n) (w : Nat) :
    v.toNat % 2 ^ w = (BitVec.ofNat n (v.toNat % 2 ^ w)).toNat % 2 ^ w := by
  rw [ofNat_mod_toNat, Nat.mod_mod]

/-- The same after zero-extension (R84). -/
theorem zextValue_mask {n : Nat} (hn : n ≤ 64) (v : BitVec n) (w : Nat) :
    (zextValue v).toNat % 2 ^ w = (zextValue (BitVec.ofNat n (v.toNat % 2 ^ w))).toNat % 2 ^ w := by
  rw [zextValue_toNat hn, zextValue_toNat hn, ← value_mask]

/-- A boolean is one bit, so that only width 0 masks it away. -/
theorem boolValue_mask (v : Bool) (w : Nat) :
    (boolValue v).toNat % 2 ^ w = (boolValue (v && decide (1 ≤ w))).toNat % 2 ^ w := by
  rcases Nat.eq_zero_or_pos w with rfl | hpos
  · rw [pow_zero, Nat.mod_one, Nat.mod_one]
  · rw [decide_eq_true (Nat.succ_le_of_lt hpos), Bool.and_true]

/-- The values -200 and 56 are one value under the mask at width 8 (R72), but the sign fold tells them apart: the bytes they
leave are 0xB8 and 0x38. -/
theorem exec_wsb_minus_two_hundred_ne_fifty_six :
    exec (.wsb (BitVec.ofInt 64 (-200)) 8 64) State.reset ≠ exec (.wsb 56 8 64) State.reset := by
  have hnegative : (nextState? (exec (.wsb (BitVec.ofInt 64 (-200)) 8 64) State.reset)).map (·.writer.buffer) =
      some [(0, 0xB8)] := by decide
  have hpositive : (nextState? (exec (.wsb 56 8 64) State.reset)).map (·.writer.buffer) = some [(0, 0x38)] := by decide
  intro heq
  rw [heq, hpositive] at hnegative
  exact absurd hnegative (by decide)

/-- Settles O23: the unsigned writers are the primitive, which masks; the signed ones its variant, which folds and masks; a width
above the maximum is the error of either. -/
theorem valuesAreMaskedAndWidthsAreChecked : Obligations.ValuesAreMaskedAndWidthsAreChecked := by
  refine ⟨fun s w => ⟨fun v m => ?_, fun v => ?_, fun v => ?_, fun v => ?_, fun v => ?_, fun v => ?_⟩,
    fun s w hw => ⟨fun v v' m h => ?_, fun v v' h => ?_, fun v v' h => ?_, fun v v' h => ?_, fun v v' h => ?_⟩,
    by decide, exec_wsb_minus_two_hundred_ne_fifty_six,
    fun s v w m hbad => ⟨writeBits_of_unsupported hbad v s, writeSigned_of_unsupported hbad v s⟩⟩
  · exact writeBits_congr (value_mask v w.toNat) m s
  · exact writeBits_congr (zextValue_mask (by decide) v w.toNat) 8 s
  · exact writeBits_congr (zextValue_mask (by decide) v w.toNat) 16 s
  · exact writeBits_congr (zextValue_mask (by decide) v w.toNat) 32 s
  · exact writeBits_congr (value_mask v w.toNat) 64 s
  · exact writeBits_congr (boolValue_mask v w.toNat) 1 s
  · exact writeSigned_congr hw h m s
  · exact writeSigned_congr hw h 8 s
  · exact writeSigned_congr hw h 16 s
  · exact writeSigned_congr hw h 32 s
  · exact writeSigned_congr hw h 64 s

end Sys2Proof.Machine
end

section
/-! The fast path of WBYTES (spec/42_structural.md R126, R127): with nothing pending the bytes are pushed as they are, and the
cache, which R26 (b) keeps empty there, is left alone. -/

namespace Sys2Proof.Machine

/-- With nothing pending WBYTES takes the fast path (R126). -/
theorem appendBytes_of_no_pending {ws : WriterState} (hp : ws.pendingBits = 0) (bs : List Byte) :
    appendBytes bs ws = appendAligned bs ws := by
  have haligned : byteAligned ws = true := by rw [byteAligned, hp]; decide
  rw [appendBytes, if_pos haligned]

/-- With nothing pending a clean cache holds no bit at all (R26 (b)). -/
theorem cache_eq_zero_of_no_pending {ws : WriterState} (h : ws.CacheClean) (hp : ws.pendingBits = 0) : ws.cache = 0 := by
  rw [WriterState.CacheClean, hp, Fin.val_zero, Nat.sub_zero, Nat.mod_eq_of_lt ws.cache.isLt] at h
  exact BitVec.eq_of_toNat_eq h

/-- Settles O41: nothing pending selects the fast path, room lets it complete, and the clean cache is zero. -/
theorem writeBytesFastPathCopiesTheBytes : Obligations.WriteBytesFastPathCopiesTheBytes := by
  intro s bs hp hroom
  refine ⟨?_, fun hinv => cache_eq_zero_of_no_pending hinv.clean hp⟩
  rw [exec_wbytes, appendBytes_of_no_pending hp, commit_of_room hroom, appendAligned]

end Sys2Proof.Machine
end

section
/-! The accessors (spec/43_accessors.md R140 to R142): each answers from the writer and keeps every field; together they tell how
many bits are pending, and with none pending the buffer is the whole stream. -/

namespace Sys2Proof.Machine

/-- Settles O48: in canonical form `MemRead` over the whole buffer is its byte sequence, and that is what DATA answers. -/
theorem dataReturnsTheWholeBuffer : Obligations.DataReturnsTheWholeBuffer := by
  intro s hwf
  exact ⟨s.writer.buffer.bytes, read_all hwf, bytes_length _, readByte_eq hwf, exec_data s⟩

/-- R26 (c), with the buffer's length taken from the bytes DATA answers. -/
theorem bitCount_eq_bytes_add_pending {ws : WriterState} (hinv : ws.Inv) :
    ws.bitCount.toNat = 8 * ws.buffer.bytes.length + ws.pendingBits.val := by
  rw [bytes_length]
  exact hinv.counted

/-- With nothing pending the cache adds no bit to the stream (R41). -/
theorem bytes_eq_stream_of_no_pending {ws : WriterState} (hp : ws.pendingBits.val = 0) :
    ws.buffer.bytes.flatMap bitsOfByte = ws.stream := by
  rw [WriterState.stream, hp, List.take_zero, List.append_nil]

/-- Settles O49: the count is R26 (c); a count that 8 divides leaves nothing pending, since at most 7 bits are. -/
theorem accessorsTellThePendingBits : Obligations.AccessorsTellThePendingBits := by
  intro s hinv
  have hcount := bitCount_eq_bytes_add_pending hinv
  have hlt := hinv.pending_lt
  refine ⟨s.writer.bitCount, s.writer.buffer.bytes, exec_bitcnt s, exec_data s, hcount, by omega, by omega, fun h8 => ?_⟩
  have hnone : s.writer.pendingBits.val = 0 := by omega
  exact bytes_eq_stream_of_no_pending hnone

/-- Settles O47: BITCNT's law, with every field of the answered state named. -/
theorem bitcntReturnsTheCounter : Obligations.BitcntReturnsTheCounter :=
  fun s => exec_bitcnt s

end Sys2Proof.Machine
end

section
/-! Commands with valid operands (spec/60_exceptions.md R150): each is one `commit` of the bits it writes or an accessor, so its
only answer is OK. -/

namespace Sys2Proof.Machine

/-- The shape of `errorOf`'s width clauses: where they answer no error, the write commits its bits (R61, R153). -/
theorem writeBits_of_no_error {w m : Byte} {p : Prop} [Decidable p] {e : ErrorKind}
    (h : (if p then some e else none) = none) (hp : ¬ p → w.toNat ≤ m.toNat ∧ w.toNat ≤ 64) (value : Word) (s : State) :
    ∃ ws, writeBits value w m s = commit w.toNat ws s :=
  ⟨_, writeBits_of_supported (hp (not_of_ite_some_eq_none h)) value s⟩

/-- The same for the signed variant (R71). -/
theorem writeSigned_of_no_error {w m : Byte} {p : Prop} [Decidable p] {e : ErrorKind}
    (h : (if p then some e else none) = none) (hp : ¬ p → w.toNat ≤ m.toNat ∧ w.toNat ≤ 64) (value : Word) (s : State) :
    ∃ ws, writeSigned value w m s = commit w.toNat ws s :=
  ⟨_, writeSigned_of_supported (hp (not_of_ite_some_eq_none h)) value s⟩

/-- A command without an error is an accessor, or one range test (R23, R25) on the bits it writes, followed by OK. -/
theorem exec_eq_commit_or_accessor {i : Instr} (hi : errorOf i = none) (s : State) :
    i = .bitcnt ∨ i = .data ∨ ∃ ws, exec i s = commit (bitsWritten i s) ws s := by
  cases i with
  | bitcnt => exact .inl rfl
  | data => exact .inr (.inl rfl)
  | wub v w m => exact .inr (.inr (writeBits_of_no_error hi supported_of_not_unsupported v s))
  | wsb v w m => exact .inr (.inr (writeSigned_of_no_error hi supported_of_not_unsupported v s))
  | wbool v w => exact .inr (.inr (writeBits_of_no_error hi (supported_of_native (m := 1) (by decide)) (boolValue v) s))
  | wu8 v w => exact .inr (.inr (writeBits_of_no_error hi (supported_of_native (m := 8) (by decide)) (zextValue v) s))
  | wu16 v w => exact .inr (.inr (writeBits_of_no_error hi (supported_of_native (m := 16) (by decide)) (zextValue v) s))
  | wu32 v w => exact .inr (.inr (writeBits_of_no_error hi (supported_of_native (m := 32) (by decide)) (zextValue v) s))
  | wu64 v w => exact .inr (.inr (writeBits_of_no_error hi (supported_of_native (m := 64) (by decide)) v s))
  | wi8 v w => exact .inr (.inr (writeSigned_of_no_error hi (supported_of_native (m := 8) (by decide)) (sextValue v) s))
  | wi16 v w => exact .inr (.inr (writeSigned_of_no_error hi (supported_of_native (m := 16) (by decide)) (sextValue v) s))
  | wi32 v w => exact .inr (.inr (writeSigned_of_no_error hi (supported_of_native (m := 32) (by decide)) (sextValue v) s))
  | wi64 v w => exact .inr (.inr (writeSigned_of_no_error hi (supported_of_native (m := 64) (by decide)) v s))
  | skip n => exact .inr (.inr ⟨_, exec_skip n s⟩)
  | align k =>
    have hk : k ≠ 0 := fun h => not_of_ite_some_eq_none hi (congrArg BitVec.toNat h)
    exact .inr (.inr ⟨_, alignTo_of_pos hk s⟩)
  | wbytes bs => exact .inr (.inr ⟨_, exec_wbytes bs s⟩)
  | close => exact .inr (.inr ⟨_, alignTo_of_pos (k := 1) (by decide) s⟩)

/-- A command without an error answers OK if it answers at all. -/
theorem exec_status_ok {i : Instr} {s t : State} (hi : errorOf i = none) (h : exec i s = .next t) :
    ∃ r, t.response = some r ∧ r.status = .ok := by
  obtain rfl | rfl | ⟨ws, hcommit⟩ := exec_eq_commit_or_accessor hi s
  · cases h
    exact ⟨_, rfl, rfl⟩
  · cases h
    exact ⟨_, rfl, rfl⟩
  · exact ⟨Response.done, commit_response (hcommit.symm.trans h), rfl⟩

/-- Settles O30: operands in error raise that error on every state and touch the response alone; the others answer OK. -/
theorem errorsAreDecidedByTheOperandsAlone : Obligations.ErrorsAreDecidedByTheOperandsAlone := by
  intro i s
  refine ⟨fun e he => ?_, fun hi t h => exec_status_ok hi h⟩
  exact ⟨s.failed e, exec_of_errorOf_eq_some he s, failed_response s e, failed_writer s e, failed_input s e, failed_config s e⟩

end Sys2Proof.Machine
end

section
/-! The encoder and the decoder (spec/30_encoding.md R81 to R86): the opcode map, said once for each direction, and the command word
as its 11 bytes. -/

namespace Sys2Proof

/-! ### What may stand behind a word -/

@[simp] theorem noPayload_nil (i : Instr) : noPayload [] i = .instr i := rfl

theorem noPayload_of_ne_nil {payload : List Byte} (h : payload ≠ []) (i : Instr) : noPayload payload i = .rejected .excess :=
  if_neg (by simpa using h)

theorem noPayload_eq_instr {payload : List Byte} {i j : Instr} (h : noPayload payload j = .instr i) : payload = [] ∧ j = i := by
  rcases payload with _ | ⟨b, rest⟩
  · exact ⟨rfl, by simpa using h⟩
  · cases h

theorem withPayload_of_short {len : Nat} {payload : List Byte} (h : payload.length < len) :
    withPayload len payload = .rejected .incomplete := if_pos h

theorem withPayload_of_long {len : Nat} {payload : List Byte} (h : len < payload.length) :
    withPayload len payload = .rejected .excess := by
  rw [withPayload, if_neg (by omega), if_pos h]

theorem withPayload_of_length_eq {len : Nat} {payload : List Byte} (h : payload.length = len) :
    withPayload len payload = .instr (.wbytes payload) := by
  rw [withPayload, if_neg (by omega), if_neg (by omega)]

theorem withPayload_eq_instr {len : Nat} {payload : List Byte} {i : Instr} (h : withPayload len payload = .instr i) :
    payload.length = len ∧ i = .wbytes payload := by
  rcases Nat.lt_trichotomy payload.length len with hlt | heq | hgt
  · rw [withPayload_of_short hlt] at h; cases h
  · rw [withPayload_of_length_eq heq] at h; cases h; exact ⟨heq, rfl⟩
  · rw [withPayload_of_long hgt] at h; cases h

/-! ### From a command to its word and back -/

/-- A value that stands zero-extended in the operand field is read back from the field's low bits (R84). -/
theorem extractLsb'_setWidth {n : Nat} (h : n ≤ 64) (v : BitVec n) : (v.setWidth 64).extractLsb' 0 n = v := by
  rw [← BitVec.setWidth_eq_extractLsb' h, BitVec.setWidth_setWidth_of_le v h, BitVec.setWidth_eq]

theorem getLsbD_zero_setWidth_ofBool (b : Bool) : ((BitVec.ofBool b).setWidth 64).getLsbD 0 = b := by
  cases b <;> rfl

/-- The word of a command without payload stands for that command, and for nothing with any byte behind it. -/
theorem instrOfCmd_cmdOf {i : Instr} (hi : ∀ bs, i ≠ .wbytes bs) (payload : List Byte) :
    instrOfCmd (cmdOf i) payload = noPayload payload i := by
  cases i with
  | wu8 v w => exact congrArg (fun x => noPayload payload (.wu8 x w)) (extractLsb'_setWidth (by decide) v)
  | wu16 v w => exact congrArg (fun x => noPayload payload (.wu16 x w)) (extractLsb'_setWidth (by decide) v)
  | wu32 v w => exact congrArg (fun x => noPayload payload (.wu32 x w)) (extractLsb'_setWidth (by decide) v)
  | wi8 v w => exact congrArg (fun x => noPayload payload (.wi8 x w)) (extractLsb'_setWidth (by decide) v)
  | wi16 v w => exact congrArg (fun x => noPayload payload (.wi16 x w)) (extractLsb'_setWidth (by decide) v)
  | wi32 v w => exact congrArg (fun x => noPayload payload (.wi32 x w)) (extractLsb'_setWidth (by decide) v)
  | wbool v w => exact congrArg (fun x => noPayload payload (.wbool x w)) (getLsbD_zero_setWidth_ofBool v)
  | align k => exact congrArg (fun x => noPayload payload (.align x)) (extractLsb'_setWidth (by decide) k)
  | wbytes bs => exact absurd rfl (hi bs)
  | wu64 _ _ | wi64 _ _ | wub _ _ _ | wsb _ _ _ | skip _ | close | bitcnt | data => rfl

/-- The word of WBYTES asks for the payload's length, which a well-formed payload fits into the operand field (R86). -/
theorem instrOfCmd_cmdOf_wbytes {bs : List Byte} (h : wellFormed (.wbytes bs) = true) (payload : List Byte) :
    instrOfCmd (cmdOf (.wbytes bs)) payload = withPayload bs.length payload := by
  have hlen : (BitVec.ofNat 64 bs.length).toNat = bs.length := by
    rw [BitVec.toNat_ofNat]
    exact Nat.mod_eq_of_lt (of_decide_eq_true h)
  exact congrArg (withPayload · payload) hlen

theorem payloadOf_eq_nil {i : Instr} (hi : ∀ bs, i ≠ .wbytes bs) : payloadOf i = [] := by
  cases i with
  | wbytes bs => exact absurd rfl (hi bs)
  | wu8 _ _ | wu16 _ _ | wu32 _ _ | wu64 _ _ | wi8 _ _ | wi16 _ _ | wi32 _ _ | wi64 _ _ | wbool _ _ | wub _ _ _ | wsb _ _ _
  | skip _ | align _ | close | bitcnt | data => rfl

/-- What the opcode map accepts has the word's opcode and exactly the payload given (R82, R86). -/
theorem instrOfCmd_eq_instr {c : Cmd} {payload : List Byte} {i : Instr} (h : instrOfCmd c payload = .instr i) :
    opcodeOf i = c.op ∧ payloadOf i = payload ∧ wellFormed i = true := by
  unfold instrOfCmd at h
  split at h
  case h_14 hop =>
    obtain ⟨hlen, rfl⟩ := withPayload_eq_instr h
    exact ⟨hop.symm, rfl, decide_eq_true (hlen ▸ c.operand.isLt)⟩
  case h_18 => cases h
  all_goals
    next hop =>
    obtain ⟨rfl, rfl⟩ := noPayload_eq_instr h
    exact ⟨hop.symm, rfl, rfl⟩

/-! ### From eleven bytes to the word and back -/

/-- Bit strings side by side are numbers side by side. -/
theorem toNat_append_eq {m n : Nat} (x : BitVec m) (y : BitVec n) : (x ++ y).toNat = x.toNat * 2 ^ n + y.toNat := by
  rw [BitVec.toNat_append, Nat.shiftLeft_eq, Machine.or_eq_add y.isLt]

/-- The operand field is its eight bytes as one number (R81). -/
theorem operandOfBytes_toNat (b7 b6 b5 b4 b3 b2 b1 b0 : Byte) :
    (operandOfBytes b7 b6 b5 b4 b3 b2 b1 b0).toNat = Machine.numberOfBytes [b7, b6, b5, b4, b3, b2, b1, b0] := by
  simp only [operandOfBytes, toNat_append_eq, Machine.numberOfBytes, List.foldl_cons, List.foldl_nil]
  omega

/-- The eight bytes of a field put together from eight bytes are those bytes. -/
theorem extract_operandOfBytes (b7 b6 b5 b4 b3 b2 b1 b0 : Byte) :
    let v := operandOfBytes b7 b6 b5 b4 b3 b2 b1 b0
    [v.extractLsb' 56 8, v.extractLsb' 48 8, v.extractLsb' 40 8, v.extractLsb' 32 8,
      v.extractLsb' 24 8, v.extractLsb' 16 8, v.extractLsb' 8 8, v.extractLsb' 0 8] = [b7, b6, b5, b4, b3, b2, b1, b0] := by
  intro v
  have hv : v.toNat = Machine.numberOfBytes [b7, b6, b5, b4, b3, b2, b1, b0] := operandOfBytes_toNat b7 b6 b5 b4 b3 b2 b1 b0
  simp only [List.cons.injEq, and_true, ← BitVec.toNat_inj, BitVec.extractLsb'_toNat, hv, Machine.numberOfBytes, List.foldl_cons,
    List.foldl_nil, Nat.shiftRight_eq_div_pow]
  omega

/-- The bytes a word is read from are the word's own bytes, and then what follows. -/
theorem eq_bytesOfCmd_append {bs payload : List Byte} {c : Cmd} (h : cmdOfBytes bs = some (c, payload)) :
    bs = bytesOfCmd c ++ payload := by
  unfold cmdOfBytes at h
  split at h
  · next op w m b7 b6 b5 b4 b3 b2 b1 b0 rest =>
    cases h
    rw [bytesOfCmd, extract_operandOfBytes]
    rfl
  · cases h

end Sys2Proof
end

section
/-! The decoder (spec/30_encoding.md sections 2 to 5): what it gives back, what it accepts, where it reads operands, and what it
rejects. -/

namespace Sys2Proof.Machine

/-- The bytes of a well-formed command are read as that command. -/
theorem decode_encode {i : Instr} (h : wellFormed i = true) : decode (encode i) = .instr i := by
  rw [encode, decode_bytesOfCmd]
  by_cases hi : ∀ bs, i ≠ .wbytes bs
  · rw [payloadOf_eq_nil hi, instrOfCmd_cmdOf hi, noPayload_nil]
  · obtain ⟨bs, rfl⟩ := not_forall_not.1 hi
    rw [instrOfCmd_cmdOf_wbytes h]
    exact withPayload_of_length_eq rfl

/-- Settles O1: each operand is read back from the field the encoder put it in, and the payload from its length. -/
theorem encodedCommandsDecodeBack : Obligations.EncodedCommandsDecodeBack :=
  fun _ h => decode_encode h

/-- Settles O2: accepted bytes are a word's eleven and what follows, and the opcode map takes only what the word asks for. -/
theorem acceptedBytesAreOneWholeCommand : Obligations.AcceptedBytesAreOneWholeCommand := by
  intro bs i h
  unfold decode at h
  split at h
  · next c payload hcmd =>
    obtain ⟨hop, hpayload, hwf⟩ := instrOfCmd_eq_instr h
    obtain rfl := eq_bytesOfCmd_append hcmd
    rw [hop, hpayload]
    exact ⟨hwf, by rw [List.length_append, bytesOfCmd_length], rfl, rfl⟩
  · cases h

/-- The low bits of a field, taken by its number (R84). -/
theorem extractLsb'_eq_ofNat (v : Word) (n : Nat) : v.extractLsb' 0 n = BitVec.ofNat n v.toNat := by
  apply BitVec.eq_of_toNat_eq
  rw [BitVec.extractLsb'_toNat, Nat.shiftRight_zero, BitVec.toNat_ofNat]

theorem getLsbD_zero_eq_odd (v : Word) : v.getLsbD 0 = decide (v.toNat % 2 = 1) := Nat.testBit_zero v.toNat

/-- Settles O3: the operand field is the number of its eight bytes, and the opcode map takes its low bits. -/
theorem operandsAreReadFromTheirFields : Obligations.OperandsAreReadFromTheirFields := by
  intro w m b7 b6 b5 b4 b3 b2 b1 b0 N hN word
  have hfield : (operandOfBytes b7 b6 b5 b4 b3 b2 b1 b0).toNat = N := (operandOfBytes_toNat ..).trans hN.symm
  have hlow (n : Nat) : (operandOfBytes b7 b6 b5 b4 b3 b2 b1 b0).extractLsb' 0 n = BitVec.ofNat n N :=
    hfield ▸ extractLsb'_eq_ofNat _ n
  have hall : operandOfBytes b7 b6 b5 b4 b3 b2 b1 b0 = BitVec.ofNat 64 N := by rw [← hfield, BitVec.ofNat_toNat, BitVec.setWidth_eq]
  have hbit : (operandOfBytes b7 b6 b5 b4 b3 b2 b1 b0).getLsbD 0 = decide (N % 2 = 1) := hfield ▸ getLsbD_zero_eq_odd _
  refine ⟨?_, ?_, ?_, ?_, ?_, ?_, ?_, ?_, ?_, ?_, ?_, ?_, ?_, fun payload hpayload => ?wbytes, rfl, rfl, rfl⟩
  case wbytes => exact withPayload_of_length_eq (hpayload.trans hfield.symm)
  · exact congrArg (fun x => Decoded.instr (.wu8 x w)) (hlow 8)
  · exact congrArg (fun x => Decoded.instr (.wu16 x w)) (hlow 16)
  · exact congrArg (fun x => Decoded.instr (.wu32 x w)) (hlow 32)
  · exact congrArg (fun x => Decoded.instr (.wu64 x w)) hall
  · exact congrArg (fun x => Decoded.instr (.wi8 x w)) (hlow 8)
  · exact congrArg (fun x => Decoded.instr (.wi16 x w)) (hlow 16)
  · exact congrArg (fun x => Decoded.instr (.wi32 x w)) (hlow 32)
  · exact congrArg (fun x => Decoded.instr (.wi64 x w)) hall
  · exact congrArg (fun x => Decoded.instr (.wbool x w)) hbit
  · exact congrArg (fun x => Decoded.instr (.wub x w m)) hall
  · exact congrArg (fun x => Decoded.instr (.wsb x w m)) hall
  · exact congrArg (fun x => Decoded.instr (.skip x)) hall
  · exact congrArg (fun x => Decoded.instr (.align x)) (hlow 32)

/-! ### Rejections -/

theorem decode_of_short {bs : List Byte} (h : bs.length < 11) : decode bs = .rejected .incomplete := by
  rw [decode, cmdOfBytes_eq_none h]

theorem noPayload_ne_reserved (payload : List Byte) (i : Instr) (op : Byte) : noPayload payload i ≠ .rejected (.reserved op) := by
  rcases payload with _ | ⟨b, rest⟩ <;> rintro ⟨⟩

theorem withPayload_ne_reserved (len : Nat) (payload : List Byte) (op : Byte) :
    withPayload len payload ≠ .rejected (.reserved op) := by
  unfold withPayload
  split
  · rintro ⟨⟩
  · split <;> rintro ⟨⟩

/-- The reserved ranges of R90. -/
def ReservedOpcode (op : Byte) : Prop :=
  op.toNat ≤ 0x0F ∨ (0x19 ≤ op.toNat ∧ op.toNat ≤ 0x1F) ∨ (0x22 ≤ op.toNat ∧ op.toNat ≤ 0x2F) ∨
    (0x34 ≤ op.toNat ∧ op.toNat ≤ 0x3F) ∨ 0x42 ≤ op.toNat

/-- The opcode map has a row for every opcode outside R90's ranges and for none within them. -/
theorem instrOfCmd_reserved_iff (c : Cmd) (payload : List Byte) :
    instrOfCmd c payload = .rejected (.reserved c.op) ↔ ReservedOpcode c.op := by
  unfold instrOfCmd ReservedOpcode
  split
  case h_14 hop => simp [withPayload_ne_reserved, hop]
  case h_18 =>
    simp only [imp_false, ← BitVec.toNat_inj, BitVec.toNat_ofNat, Nat.reducePow, Nat.reduceMod, true_iff] at *
    omega
  all_goals
    next hop => simp [noPayload_ne_reserved, hop]

theorem decode_reserved_iff {op : Byte} {tail : List Byte} (h : 10 ≤ tail.length) :
    decode (op :: tail) = .rejected (.reserved op) ↔ ReservedOpcode op := by
  obtain ⟨c, payload, hcmd, hop, -⟩ := exists_cmd (bs := op :: tail) (by rw [List.length_cons]; omega)
  obtain rfl : op = c.op := by simpa using hop
  rw [decode, hcmd]
  exact instrOfCmd_reserved_iff c payload

/-! ### The step -/

theorem step_of_no_input {s : State} (h : s.input = []) : step s = .refused .noCommand := by
  rw [step, h]

theorem step_of_reset {s : State} {rest : List Input} (h : s.input = .reset :: rest) :
    step s = .next { s.applyReset with input := rest } := by
  rw [step, h]

theorem step_of_instr {s : State} {bs : List Byte} {i : Instr} {rest : List Input} (h : s.input = .command bs :: rest)
    (hi : decode bs = .instr i) : step s = exec i { s with input := rest } := by
  simp only [step, h, hi]

theorem step_of_rejected {s : State} {bs : List Byte} {e : DecodeError} {rest : List Input}
    (h : s.input = .command bs :: rest) (he : decode bs = .rejected e) : step s = .refused (refusalOf e) := by
  simp only [step, h, he]

/-- Settles O4: the opcode map decides the rejection, and the step refuses what is rejected. -/
theorem reservedOpcodesAreRefused : Obligations.ReservedOpcodesAreRefused := by
  intro op tail htail reserved
  have hiff : decode (op :: tail) = .rejected (.reserved op) ↔ reserved := decode_reserved_iff htail
  exact ⟨hiff, fun hres s rest hinput => step_of_rejected hinput (hiff.2 hres)⟩

/-- A well-formed command with anything behind it is in excess (log 6). -/
theorem decode_encode_append {i : Instr} (h : wellFormed i = true) {extra : List Byte} (hextra : extra ≠ []) :
    decode (encode i ++ extra) = .rejected .excess := by
  rw [encode, List.append_assoc, decode_bytesOfCmd]
  by_cases hi : ∀ bs, i ≠ .wbytes bs
  · rw [instrOfCmd_cmdOf hi, payloadOf_eq_nil hi, List.nil_append]
    exact noPayload_of_ne_nil hextra i
  · obtain ⟨bs, rfl⟩ := not_forall_not.1 hi
    have hpos := List.length_pos_iff.2 hextra
    rw [instrOfCmd_cmdOf_wbytes h]
    refine withPayload_of_long ?_
    rw [payloadOf, List.length_append]
    omega

/-- Settles O5: a short word is no word; WBYTES compares its payload with the length its operand field asks for; nothing may stand
behind a command. -/
theorem mismatchedPayloadsAreRejected : Obligations.MismatchedPayloadsAreRejected := by
  refine ⟨fun bs h => decode_of_short h, fun w m b7 b6 b5 b4 b3 b2 b1 b0 payload => ?_,
    fun i extra h hextra => decode_encode_append h hextra⟩
  intro len
  have hlen : (operandOfBytes b7 b6 b5 b4 b3 b2 b1 b0).toNat = len := operandOfBytes_toNat ..
  exact ⟨fun hshort => withPayload_of_short (hlen ▸ hshort), fun hlong => withPayload_of_long (hlen ▸ hlong)⟩

/-- Settles O6: each word is one evaluation of the decoder. -/
theorem writtenOutWordsDecode : Obligations.WrittenOutWordsDecode := by
  unfold Obligations.WrittenOutWordsDecode
  decide

/-- Settles O7: the step's own equation on a decoded command. -/
theorem stepPerformsTheIssuedCommand : Obligations.StepPerformsTheIssuedCommand :=
  fun _ _ _ _ hinput hi => step_of_instr hinput hi

/-- Settles O8: the step's own equations on no input and on rejected bytes. -/
theorem stepRefusesWhatIsNoCommand : Obligations.StepRefusesWhatIsNoCommand :=
  fun _ => ⟨step_of_no_input, fun _ _ hinput =>
    ⟨fun _ h => step_of_rejected hinput h, step_of_rejected hinput, step_of_rejected hinput⟩⟩

/-- Settles O9: the step's own equation on a reset, with the empty writer written out. -/
theorem resetInputEmptiesTheWriter : Obligations.ResetInputEmptiesTheWriter :=
  fun _ _ hinput => step_of_reset hinput

/-- Settles O10: the reset state's fields. -/
theorem resetStateIsTheEmptyWriter : Obligations.ResetStateIsTheEmptyWriter :=
  ⟨reset_buffer, reset_bitCount, reset_pendingBits, reset_cache, rfl, rfl, rfl⟩

end Sys2Proof.Machine
end

section
/-! The invariants of the whole machine (spec/10_state.md R25, R26) over a step: a command only completes where BUF_CAP lets it. -/

namespace Sys2Proof.Machine

/-- A command with a next state failed, which touches the response alone, or had valid operands and appended its bits. -/
theorem exec_next_cases {i : Instr} {s t : State} (hc : s.writer.CacheClean) (h : exec i s = .next t) :
    (∃ e, errorOf i = some e ∧ t = s.failed e) ∨ (errorOf i = none ∧ Appended s t (bitsWritten i s)) := by
  cases hi : errorOf i with
  | none => exact .inr ⟨rfl, exec_appended hc hi h⟩
  | some e =>
    rw [exec_of_errorOf_eq_some hi s] at h
    cases h
    exact .inl ⟨e, rfl, rfl⟩

/-- No command touches the caller's later input or BUF_CAP (logs 1, 3). -/
theorem exec_input_config {i : Instr} {s t : State} (hc : s.writer.CacheClean) (h : exec i s = .next t) :
    t.input = s.input ∧ t.config = s.config := by
  obtain ⟨e, -, rfl⟩ | ⟨-, happ⟩ := exec_next_cases hc h
  · exact ⟨rfl, rfl⟩
  · exact ⟨happ.input, happ.config⟩

/-- An empty writer is within every capacity (R25). -/
theorem withinCapacity_of_empty {s : State} (h : s.writer = WriterState.reset) : s.WithinCapacity := by
  intro cap _
  rw [h]
  exact Nat.zero_le cap

/-- Bits in range leave the buffer within BUF_CAP (R25): they complete no byte, or only bytes there is room for. -/
theorem withinCapacity_of_append {s t : State} {v n : Nat} (hcap : s.WithinCapacity) (hroom : s.RoomFor n)
    (hwriter : t.writer = s.writer.appendBits v n) (hconfig : t.config = s.config) : t.WithinCapacity := by
  intro cap hsome
  rw [hconfig] at hsome
  have hold := hcap cap hsome
  have hnew := hroom.buffer cap hsome
  rw [hwriter, appendBits_length]
  omega

theorem exec_keeps_inv {i : Instr} {s t : State} (hinv : s.Inv) (h : exec i s = .next t) : t.Inv := by
  have hc := hinv.writer.clean
  obtain ⟨v, n, hroom, hwriter⟩ := exec_writer_eq_appendBits hc h
  exact ⟨exec_keeps_writer_inv hinv.writer h, withinCapacity_of_append hinv.capacity hroom hwriter (exec_input_config hc h).2⟩

theorem inv_of_reset_writer {s : State} (h : s.writer = WriterState.reset) : s.Inv :=
  ⟨h ▸ reset_writer_inv, withinCapacity_of_empty h⟩

/-- The input is no part of the invariants. -/
theorem inv_with_input {s : State} (h : s.Inv) (input : List Input) : State.Inv { s with input := input } :=
  ⟨h.writer, h.capacity⟩

/-- Settles O14: a step with a next state is a reset, which empties the writer, or a decoded command, which keeps the invariants. -/
theorem everyStepKeepsTheInvariants : Obligations.EveryStepKeepsTheInvariants := by
  intro s t hinv h
  match hinput : s.input with
  | [] => rw [step_of_no_input hinput] at h; cases h
  | .reset :: rest =>
    rw [step_of_reset hinput] at h
    cases h
    exact inv_of_reset_writer rfl
  | .command bs :: rest =>
    cases hbs : decode bs with
    | instr i =>
      rw [step_of_instr hinput hbs] at h
      exact exec_keeps_inv (inv_with_input hinv rest) h
    | rejected e => rw [step_of_rejected hinput hbs] at h; cases h

/-- Settles O12: the reset state's writer is the empty one. -/
theorem resetMeetsTheInvariants : Obligations.ResetMeetsTheInvariants :=
  inv_of_reset_writer rfl

end Sys2Proof.Machine
end

section
/-! Outcomes and responses (spec/60_exceptions.md R150 to R156, spec/30_encoding.md R83): a valid command completes exactly in range
and is refused by name otherwise; a failure is seen by no later command. -/

namespace Sys2Proof.Machine

/-! ### The range refusals -/

theorem commit_of_counter_overflow {s : State} {n : Nat} (h : 2 ^ 64 - 1 < s.writer.bitCount.toNat + n) (ws : WriterState) :
    commit n ws s = .refused .bitCountOverflow := by
  rw [commit, rangeRefusal, if_pos ((counterOverflows_iff s.writer n).2 h)]

/-- The capacity is judged only of bits within the counter (log 10). -/
theorem commit_of_buffer_full {s : State} {n cap : Nat} (hcounter : s.writer.bitCount.toNat + n ≤ 2 ^ 64 - 1)
    (hcap : s.config.bufCap = some cap) (hpush : 0 < (s.writer.pendingBits.val + n) / 8)
    (hfull : cap < s.writer.buffer.length + (s.writer.pendingBits.val + n) / 8) (ws : WriterState) :
    commit n ws s = .refused .bufferFull := by
  have hno : ¬ counterOverflows s.writer n = true := fun h => absurd ((counterOverflows_iff s.writer n).1 h) (by omega)
  rw [commit, rangeRefusal, if_neg hno, if_pos ((bufferOverflows_iff s.config s.writer n).2 ⟨cap, hcap, hpush, hfull⟩)]

/-- An accessor answers at once, and writes no bit. -/
theorem exec_accessor {i : Instr} (h : i = .bitcnt ∨ i = .data) (s : State) :
    bitsWritten i s = 0 ∧ ∃ r, exec i s = .next (s.answered r) := by
  rcases h with rfl | rfl
  · exact ⟨rfl, _, exec_bitcnt s⟩
  · exact ⟨rfl, _, exec_data s⟩

/-- A command with valid operands is an accessor, always in range, or one `commit` of the bits it writes. -/
theorem exec_room_or_commit {i : Instr} (hi : errorOf i = none) (s : State) :
    (s.RoomFor (bitsWritten i s) ∧ ∃ t, exec i s = .next t) ∨ ∃ ws, exec i s = commit (bitsWritten i s) ws s := by
  have haccessor (h : i = .bitcnt ∨ i = .data) : s.RoomFor (bitsWritten i s) ∧ ∃ t, exec i s = .next t := by
    obtain ⟨hzero, r, hexec⟩ := exec_accessor h s
    exact ⟨hzero ▸ room_zero s, _, hexec⟩
  rcases exec_eq_commit_or_accessor hi s with h | h | h
  · exact .inl (haccessor (.inl h))
  · exact .inl (haccessor (.inr h))
  · exact .inr h

theorem exec_completes_iff {i : Instr} (hi : errorOf i = none) (s : State) :
    (∃ t, exec i s = .next t) ↔ s.RoomFor (bitsWritten i s) := by
  rcases exec_room_or_commit hi s with ⟨hroom, hnext⟩ | ⟨ws, hcommit⟩
  · exact iff_of_true hnext hroom
  · rw [hcommit]
    exact ⟨fun ⟨_, h⟩ => (commit_eq_next h).1, fun hroom => ⟨_, commit_of_room hroom ws⟩⟩

/-- Settles O32: completion is the range test of the command's one `commit`; out of range that test names its refusal, while an
accessor is never out of range. -/
theorem validCommandsCompleteExactlyInRange : Obligations.ValidCommandsCompleteExactlyInRange := by
  intro i s hi
  refine ⟨exec_completes_iff hi s, fun hcounter => ?counter, fun cap hcap hcounter hpush hfull => ?full⟩
  case counter =>
    rcases exec_room_or_commit hi s with ⟨hroom, -⟩ | ⟨ws, hcommit⟩
    · exact absurd hroom.counter (by omega)
    · rw [hcommit, commit_of_counter_overflow hcounter]
  case full =>
    rcases exec_room_or_commit hi s with ⟨hroom, -⟩ | ⟨ws, hcommit⟩
    · exact absurd (hroom.buffer cap hcap) (by omega)
    · rw [hcommit, commit_of_buffer_full hcounter hcap hpush hfull]

/-- Settles O33: the error is decided before any range test, and the range test leaves three outcomes. -/
theorem everyCommandHasOneOfFourOutcomes : Obligations.EveryCommandHasOneOfFourOutcomes := by
  intro i s
  refine ⟨fun e he => exec_of_errorOf_eq_some he s, fun hi => ?_⟩
  rcases exec_room_or_commit hi s with ⟨-, hnext⟩ | ⟨ws, hcommit⟩
  · exact .inl hnext
  · rw [hcommit]
    rcases commit_cases (bitsWritten i s) ws s with ⟨-, h⟩ | ⟨-, h⟩
    · exact .inl ⟨_, h⟩
    · exact .inr h

/-- A command completes where its bits are in range, whether its operands are valid or in error. -/
theorem exec_completes_of_room {i : Instr} {s : State} (h : s.RoomFor (bitsWritten i s)) : ∃ t, exec i s = .next t := by
  cases hi : errorOf i with
  | none => exact (exec_completes_iff hi s).2 h
  | some e => exact ⟨_, exec_of_errorOf_eq_some hi s⟩

/-- Settles O11: the empty writer stands on every boundary, so that CLOSE and ALIGN have nothing to pad. -/
theorem everyCommandIsLegalAfterReset : Obligations.EveryCommandIsLegalAfterReset := by
  intro s hreset
  have hboundary (k : BitVec 32) : s.writer.bitCount.toNat % (8 * k.toNat) = 0 := by
    rw [hreset]
    exact Nat.zero_mod _
  refine ⟨fun i hroom => exec_completes_of_room hroom, ?bitcnt, ?data, alignTo_on_boundary (k := 1) (by decide) (hboundary 1),
    fun k hk => alignTo_on_boundary hk (hboundary k), alignTo_zero s⟩
  case bitcnt => rw [exec_bitcnt, hreset, reset_bitCount]
  case data => rw [exec_data, hreset, reset_buffer]; rfl

/-! ### A failure leaves no trace -/

theorem commit_failed (n : Nat) (ws : WriterState) (s : State) (e : ErrorKind) : commit n ws (s.failed e) = commit n ws s := rfl

theorem writeBits_failed (v : Word) (w m : Byte) (s : State) (e : ErrorKind) :
    writeBits v w m (s.failed e) = writeBits v w m s := rfl

theorem writeSigned_failed (v : Word) (w m : Byte) (s : State) (e : ErrorKind) :
    writeSigned v w m (s.failed e) = writeSigned v w m s := rfl

theorem alignTo_failed (k : BitVec 32) (s : State) (e : ErrorKind) : alignTo k (s.failed e) = alignTo k s := rfl

/-- No command reads the response, which is all a failure leaves (R155, log 2). -/
theorem exec_failed (j : Instr) (s : State) (e : ErrorKind) : exec j (s.failed e) = exec j s := by
  cases j with
  | wub v w m => exact writeBits_failed v w m s e
  | wbool v w => exact writeBits_failed (boolValue v) w 1 s e
  | wu8 v w => exact writeBits_failed (zextValue v) w 8 s e
  | wu16 v w => exact writeBits_failed (zextValue v) w 16 s e
  | wu32 v w => exact writeBits_failed (zextValue v) w 32 s e
  | wu64 v w => exact writeBits_failed v w 64 s e
  | wsb v w m => exact writeSigned_failed v w m s e
  | wi8 v w => exact writeSigned_failed (sextValue v) w 8 s e
  | wi16 v w => exact writeSigned_failed (sextValue v) w 16 s e
  | wi32 v w => exact writeSigned_failed (sextValue v) w 32 s e
  | wi64 v w => exact writeSigned_failed v w 64 s e
  | skip n => exact commit_failed n.toNat (skipBits n.toNat s.writer) s e
  | wbytes bs => exact commit_failed (8 * bs.length) (appendBytes bs s.writer) s e
  | align k => exact alignTo_failed k s e
  | close => exact alignTo_failed 1 s e
  | bitcnt | data => rfl

/-- Settles O31: the state after a failure differs in its response only. -/
theorem failedCommandsLeaveNoTrace : Obligations.FailedCommandsLeaveNoTrace := by
  intro i j s t hi h
  obtain ⟨e, he⟩ := Option.ne_none_iff_exists'.1 hi
  rw [exec_of_errorOf_eq_some he s] at h
  cases h
  exact exec_failed j s e

/-! ### Responses -/

theorem Status.code_ne_three (status : Status) : status.code ≠ 3 := by
  rcases status with _ | _ | _ <;> decide

/-- A valid command that is no accessor answers OK and carries nothing. -/
theorem exec_response_done {i : Instr} {s t : State} (hi : errorOf i = none) (hbitcnt : i ≠ .bitcnt) (hdata : i ≠ .data)
    (h : exec i s = .next t) : t.response = some Response.done := by
  obtain ⟨ws, hcommit⟩ := ((exec_eq_commit_or_accessor hi s).resolve_left hbitcnt).resolve_left hdata
  exact commit_response (hcommit.symm.trans h)

/-- Settles O34: the responses are those of an error, of the two accessors, and of a success that carries nothing. -/
theorem responsesHaveTheSpecsFormat : Obligations.ResponsesHaveTheSpecsFormat := by
  intro i s t h
  cases hi : errorOf i with
  | some e =>
    have hbitcnt : i ≠ .bitcnt := by rintro rfl; cases hi
    have hdata : i ≠ .data := by rintro rfl; cases hi
    rw [exec_of_errorOf_eq_some hi s] at h
    cases h
    refine ⟨Response.failed e, rfl, ?_, Status.code_ne_three _, (if_neg hbitcnt).symm, (if_neg hdata).symm⟩
    cases e <;> rfl
  | none =>
    by_cases hbitcnt : i = .bitcnt
    · subst hbitcnt
      cases h
      exact ⟨_, rfl, rfl, Status.code_ne_three _, rfl, rfl⟩
    · by_cases hdata : i = .data
      · subst hdata
        cases h
        exact ⟨_, rfl, rfl, Status.code_ne_three _, rfl, rfl⟩
      · exact ⟨Response.done, exec_response_done hi hbitcnt hdata h, rfl, Status.code_ne_three _, (if_neg hbitcnt).symm,
          (if_neg hdata).symm⟩

end Sys2Proof.Machine
end

section
/-! Frames (spec/20_memory.md R44, R55): a command with valid operands pushes `(pending_bits + n) div 8` bytes for its `n` bits, and
touches nothing else of the buffer. -/

namespace Sys2Proof.Machine

theorem Appended.buffer_eq_pushAll {s t : State} {n : Nat} (h : Appended s t n) :
    ∃ pushed : List Byte, pushed.length = (s.writer.pendingBits.val + n) / 8 ∧
      t.writer.buffer = s.writer.buffer.pushAll pushed := by
  obtain ⟨v, hwriter⟩ := h.writer
  exact ⟨_, topBytes_length _ _, congrArg WriterState.buffer hwriter⟩

theorem Appended.pendingBits_val {s t : State} {n : Nat} (h : Appended s t n) :
    t.writer.pendingBits.val = (s.writer.pendingBits.val + n) % 8 := by
  obtain ⟨v, hwriter⟩ := h.writer
  rw [hwriter, appendBits_pendingBits]

/-- Whole bytes leave as many bits pending as before (R129). -/
theorem Appended.pendingBits_eq_of_bytes {s t : State} {len : Nat} (h : Appended s t (8 * len)) :
    t.writer.pendingBits = s.writer.pendingBits := by
  have hval := h.pendingBits_val
  exact Fin.ext (by omega)

/-- Settles O50: the bytes pushed stand from `len(buffer)` on and are counted by R44; a failure and an accessor push none. -/
theorem commandsLeaveTheRestAsItWas : Obligations.CommandsLeaveTheRestAsItWas := by
  intro i s t hinv h
  obtain ⟨hinput, hconfig⟩ := exec_input_config hinv.clean h
  refine ⟨hinput, hconfig, fun hi a ha => ?bytes, ?writer⟩
  case bytes =>
    obtain ⟨pushed, hlength, hpushed⟩ := (exec_appended hinv.clean hi h).buffer_eq_pushAll
    rw [hpushed]
    exact pushAll_readByte hinv.canonical pushed a (hlength ▸ ha)
  case writer =>
    rintro (hi | haccessor)
    · obtain ⟨e, -, rfl⟩ | ⟨hnone, -⟩ := exec_next_cases hinv.clean h
      · rfl
      · exact absurd hnone hi
    · obtain ⟨-, r, hexec⟩ := exec_accessor haccessor s
      rw [hexec] at h
      cases h
      rfl

/-- Settles O51: WBYTES writes whole bytes, with nothing pending past the cache; a command that completes no byte pushes none. -/
theorem registersTheCommandsKeep : Obligations.RegistersTheCommandsKeep := by
  intro s t hinv
  refine ⟨fun bs h => ⟨?pending, fun hp => ?cache⟩, fun i h hi hfit => ?buffer⟩
  case pending => exact (exec_appended (i := .wbytes bs) hinv.clean rfl h).pendingBits_eq_of_bytes
  case cache =>
    obtain ⟨-, rfl⟩ := commit_eq_next h
    rw [done_writer, appendBytes_of_no_pending hp, appendAligned_cache]
  case buffer =>
    obtain ⟨pushed, hlength, hpushed⟩ := (exec_appended hinv.clean hi h).buffer_eq_pushAll
    obtain rfl : pushed = [] := List.eq_nil_of_length_eq_zero (by omega)
    rw [hpushed, pushAll_nil]

end Sys2Proof.Machine
end

section
/-! The output stream (spec/20_memory.md R41 to R43): where its bits stand, and that they decide the writer. -/

namespace Sys2Proof.Machine

/-! ### Where a bit stands -/

theorem bitsOf_getElem? {v n i : Nat} (h : i < n) : (bitsOf v n)[i]? = some (v.testBit (n - 1 - i)) := by
  rw [List.getElem?_eq_getElem (by simpa using h), bitsOf_getElem]

/-- Bit `i` of a byte's bits is its bit `7 - i`. -/
theorem bitsOfByte_getElem? (b : Byte) {i : Nat} (h : i < 8) : (bitsOfByte b)[i]? = some (b.getLsbD (7 - i)) :=
  bitsOf_getElem? h

theorem length_flatMap_bitsOfByte (bs : List Byte) : (bs.flatMap bitsOfByte).length = 8 * bs.length := by
  simp [List.length_flatMap, Nat.mul_comm]

/-- Bit `p` of a byte sequence is bit `7 - p mod 8` of its byte `p div 8`. -/
theorem flatMap_bitsOfByte_getElem? (bs : List Byte) (p : Nat) :
    (bs.flatMap bitsOfByte)[p]? = bs[p / 8]?.map fun b => b.getLsbD (7 - p % 8) := by
  induction bs generalizing p with
  | nil => rfl
  | cons b bs ih =>
    rw [List.flatMap_cons]
    rcases Nat.lt_or_ge p 8 with hlt | hge
    · rw [List.getElem?_append_left (by simpa using hlt), bitsOfByte_getElem? b hlt, Nat.div_eq_of_lt hlt, Nat.mod_eq_of_lt hlt]
      rfl
    · rw [List.getElem?_append_right (by simpa using hge), bitsOfByte_length, ih, show p / 8 = (p - 8) / 8 + 1 by omega,
        List.getElem?_cons_succ, show (p - 8) % 8 = p % 8 by omega]

/-- The stream has one bit for each of the buffer's and one for each pending one (R41). -/
theorem stream_length (ws : WriterState) : ws.stream.length = 8 * ws.buffer.length + ws.pendingBits.val := by
  have hk := ws.pendingBits.isLt
  rw [WriterState.stream, List.length_append, length_flatMap_bitsOfByte, bytes_length, List.length_take, bitsOfByte_length]
  omega

theorem stream_length_eq_bitCount {ws : WriterState} (hinv : ws.Inv) : ws.stream.length = ws.bitCount.toNat :=
  (stream_length ws).trans hinv.counted.symm

theorem stream_getElem?_buffer {ws : WriterState} {p : Nat} {b : Byte} (h : ws.buffer.bytes[p / 8]? = some b) :
    ws.stream[p]? = some (b.getLsbD (7 - p % 8)) := by
  have hlt : p / 8 < ws.buffer.bytes.length := (List.getElem?_eq_some_iff.1 h).1
  rw [WriterState.stream, List.getElem?_append_left (by rw [length_flatMap_bitsOfByte]; omega), flatMap_bitsOfByte_getElem?, h]
  rfl

theorem stream_getElem?_cache {ws : WriterState} {p : Nat} (hlt : p < 8 * ws.buffer.length + ws.pendingBits.val)
    (hge : ws.buffer.length ≤ p / 8) : ws.stream[p]? = some (ws.cache.getLsbD (7 - p % 8)) := by
  have hk := ws.pendingBits.isLt
  rw [WriterState.stream, List.getElem?_append_right (by rw [length_flatMap_bitsOfByte, bytes_length]; omega),
    length_flatMap_bitsOfByte, bytes_length, List.getElem?_take_of_lt (by omega), bitsOfByte_getElem? _ (by omega),
    show p - 8 * ws.buffer.length = p % 8 by omega]

/-- Settles O15: the stream is the buffer's bits, then the valid ones of the cache. -/
theorem streamBitsStandWhereTheyBelong : Obligations.StreamBitsStandWhereTheyBelong := by
  intro ws hinv
  refine ⟨stream_length_eq_bitCount hinv, fun p b hread => ?_, fun p hlt hge => ?_⟩
  · rw [readByte_eq hinv.canonical] at hread
    exact stream_getElem?_buffer hread
  · exact stream_getElem?_cache (hinv.counted ▸ hlt) hge

/-! ### The stream decides the writer -/

/-- Equal bits are equal numbers, as far as the bits go. -/
theorem bitsOf_injective {v w n : Nat} (h : bitsOf v n = bitsOf w n) : v % 2 ^ n = w % 2 ^ n := by
  apply Nat.eq_of_testBit_eq
  intro j
  rw [Nat.testBit_mod_two_pow, Nat.testBit_mod_two_pow]
  by_cases hj : j < n
  · have hbit := congrArg (·[n - 1 - j]?) h
    simp only [bitsOf_getElem? (show n - 1 - j < n by omega), show n - 1 - (n - 1 - j) = j by omega, Option.some.injEq] at hbit
    rw [hbit]
  · rw [decide_eq_false hj, Bool.false_and, Bool.false_and]

theorem bitsOfByte_injective {b c : Byte} (h : bitsOfByte b = bitsOfByte c) : b = c := by
  have hmod := bitsOf_injective h
  rw [Nat.mod_eq_of_lt b.isLt, Nat.mod_eq_of_lt c.isLt] at hmod
  exact BitVec.eq_of_toNat_eq hmod

theorem flatMap_bitsOfByte_injective {bs cs : List Byte} (h : bs.flatMap bitsOfByte = cs.flatMap bitsOfByte) : bs = cs := by
  have hlen := congrArg List.length h
  rw [length_flatMap_bitsOfByte, length_flatMap_bitsOfByte] at hlen
  induction bs generalizing cs with
  | nil => exact (List.eq_nil_of_length_eq_zero (by rw [List.length_nil] at hlen; omega)).symm
  | cons b bs ih =>
    rcases cs with _ | ⟨c, cs⟩
    · rw [List.length_nil, List.length_cons] at hlen
      omega
    · rw [List.length_cons, List.length_cons] at hlen
      obtain ⟨hhead, htail⟩ := List.append_inj h (by rw [bitsOfByte_length, bitsOfByte_length])
      rw [bitsOfByte_injective hhead, ih htail (by omega)]

/-- The pending bits decide a clean cache (R26 (b)). -/
theorem cache_eq_of_bits_eq {ws ws' : WriterState} (h : ws.CacheClean) (h' : ws'.CacheClean)
    (hp : ws.pendingBits = ws'.pendingBits)
    (hbits : (bitsOfByte ws.cache).take ws.pendingBits.val = (bitsOfByte ws'.cache).take ws'.pendingBits.val) :
    ws.cache = ws'.cache := by
  rw [cache_bits, cache_bits, hp] at hbits
  have hnumber := bitsOf_injective hbits
  rw [Nat.mod_eq_of_lt (pending_number_lt ws'), Nat.mod_eq_of_lt (hp ▸ pending_number_lt ws)] at hnumber
  apply BitVec.eq_of_toNat_eq
  rw [← clean_cache h, ← clean_cache h', hp, hnumber]

/-- Settles O16: the stream's length gives the counter and how it is cut, the bits give the bytes and the cache. -/
theorem streamDeterminesTheWriter : Obligations.StreamDeterminesTheWriter := by
  intro ws ws' hinv hinv' hstream
  have hlen := congrArg List.length hstream
  rw [stream_length, stream_length] at hlen
  have hk := ws.pendingBits.isLt
  have hk' := ws'.pendingBits.isLt
  have hp : ws.pendingBits = ws'.pendingBits := Fin.ext (by omega)
  obtain ⟨hbytes, hbits⟩ := List.append_inj hstream
    (by rw [length_flatMap_bitsOfByte, length_flatMap_bitsOfByte, bytes_length, bytes_length]; omega)
  apply writer_ext
  · exact wf_ext hinv.canonical hinv'.canonical (flatMap_bitsOfByte_injective hbytes)
  · exact BitVec.eq_of_toNat_eq (by rw [hinv.counted, hinv'.counted, hlen])
  · exact cache_eq_of_bits_eq hinv.clean hinv'.clean hp hbits
  · exact hp

end Sys2Proof.Machine
end

section
/-! The unsigned writes (spec/40_core_write.md R60 to R69, spec/41_typed_writers.md R100 to R105): in range each appends the low `width`
bits of its value. -/

namespace Sys2Proof.Machine

/-- Settles O17: in range the committed primitive is the closed form of R67. -/
theorem unsignedWriteIsTheClosedForm : Obligations.UnsignedWriteIsTheClosedForm :=
  fun _ value _ _ hinv hmax h64 hroom => writeBits_eq hinv.clean value ⟨hmax, h64⟩ hroom

/-- An append in range carries the counter on without wrapping (R23). -/
theorem appendBits_bitCount_toNat {s : State} {n : Nat} (hroom : s.RoomFor n) (v : Nat) :
    (s.writer.appendBits v n).bitCount.toNat = s.writer.bitCount.toNat + n := by
  have happ : Appended s (s.done (s.writer.appendBits v n)) n := ⟨hroom, ⟨v, rfl⟩, rfl, rfl⟩
  exact happ.bitCount_toNat

/-- Settles O18: the bits of the closed form stand behind the old stream, whose length is the counter. -/
theorem unsignedWriteAppendsMostSignificantFirst : Obligations.UnsignedWriteAppendsMostSignificantFirst := by
  intro s value w m hinv hmax h64 hroom
  have hstream := appendBits_stream s.writer value.toNat w.toNat
  refine ⟨_, writeBits_eq hinv.clean value ⟨hmax, h64⟩ hroom, hstream, fun i hi => ?_, appendBits_bitCount_toNat hroom _⟩
  rw [done_writer, hstream, ← stream_length_eq_bitCount hinv, List.getElem?_append_right (Nat.le_add_right _ _),
    Nat.add_sub_cancel_left, bitsOf_getElem? hi]
  rfl

/-- A command that completes hands the rest the state it answers (R50). -/
theorem performAll_cons {i : Instr} {s t : State} (h : exec i s = .next t) (rest : List Instr) :
    performAll (i :: rest) s = performAll rest t := by
  rw [performAll, h]

theorem performAll_nil (s : State) : performAll [] s = .next s := rfl

/-- A second success overwrites all that the first left in the state. -/
theorem done_done (s : State) (ws ws' : WriterState) : (s.done ws).done ws' = s.done ws' := rfl

/-- A 64-bit value holds all that a write of at most 64 bits takes. -/
theorem appendBits_ofNat (ws : WriterState) (x : Nat) {n : Nat} (h : n ≤ 64) :
    ws.appendBits (BitVec.ofNat 64 x).toNat n = ws.appendBits x n := by
  rw [← appendBits_mod, BitVec.toNat_ofNat, Nat.mod_mod_of_dvd _ (Nat.pow_dvd_pow 2 h), appendBits_mod]

/-- WUB at `max_width` 64, in range. -/
theorem exec_wub_at_64 {s : State} (hc : s.writer.CacheClean) (v : Word) {w : Byte} (h : w.toNat ≤ 64) (hroom : s.RoomFor w.toNat) :
    exec (.wub v w 64) s = .next (s.done (s.writer.appendBits v.toNat w.toNat)) :=
  writeBits_eq hc v ⟨h, h⟩ hroom

/-- Settles O25: the second write meets the writer the first left, and two appends are one. -/
theorem twoWritesAreOneWiderWrite : Obligations.TwoWritesAreOneWiderWrite := by
  intro s v v' m n hinv h64 hroom
  obtain ⟨hroomm, hroomn⟩ := room_add hroom v.toNat
  have hadd : (m + n).toNat = m.toNat + n.toNat := by
    rw [BitVec.toNat_add]
    exact Nat.mod_eq_of_lt (by omega)
  have hfirst := exec_wub_at_64 hinv.clean v (by omega) hroomm
  have hsecond := exec_wub_at_64 (appendBits_clean _ _) v' (by omega) hroomn
  refine ⟨_, by rw [performAll_cons hfirst, performAll_cons hsecond, performAll_nil, done_done, done_writer], ?_⟩
  rw [exec_wub_at_64 hinv.clean _ (by omega) (hadd ▸ hroom), hadd, appendBits_ofNat _ _ h64, ← appendBits_append, appendBits_mod]

/-- The boolean as a number is the value WBOOL writes (R101). -/
theorem boolValue_toNat (b : Bool) : (boolValue b).toNat = b.toNat := by
  cases b <;> rfl

/-- Settles O27: each typed writer is the primitive on the zero-extended value, which is the same number. -/
theorem unsignedTypedWritersAppendTheirBits : Obligations.UnsignedTypedWritersAppendTheirBits := by
  intro s w hinv hroom
  refine ⟨fun hw v => ?_, fun hw v => ?_, fun hw v => ?_, fun hw v => ?_, fun hw v => ?_⟩
  · rw [← boolValue_toNat]
    exact writeBits_eq hinv.clean _ (m := 1) ⟨hw, by omega⟩ hroom
  · rw [← zextValue_toNat (by decide) v]
    exact writeBits_eq hinv.clean _ (m := 8) ⟨hw, by omega⟩ hroom
  · rw [← zextValue_toNat (by decide) v]
    exact writeBits_eq hinv.clean _ (m := 16) ⟨hw, by omega⟩ hroom
  · rw [← zextValue_toNat (by decide) v]
    exact writeBits_eq hinv.clean _ (m := 32) ⟨hw, by omega⟩ hroom
  · exact writeBits_eq hinv.clean v (m := 64) ⟨hw, hw⟩ hroom

/-! ### A write that completes a byte -/

/-- The primitive when its bits complete a byte (R65), on any writer: the first byte takes the free bits of the cache, each later one
the next eight bits, and the low bits that remain are the new cache. -/
theorem packBits_of_overflow {v : Word} {n : Nat} {ws : WriterState} (hfull : 8 ≤ ws.pendingBits.val + n) :
    packBits v n ws =
      { buffer := ws.buffer.pushAll
          ((ws.cache ||| BitVec.ofNat 8 (v.toNat % 2 ^ n / 2 ^ (n - (8 - ws.pendingBits.val)))) ::
            (List.range ((ws.pendingBits.val + n) / 8 - 1)).map fun i =>
              BitVec.ofNat 8 (v.toNat % 2 ^ n / 2 ^ (n - (8 - ws.pendingBits.val) - 8 * (i + 1))))
        bitCount := ws.bitCount + BitVec.ofNat 64 n
        cache := BitVec.ofNat 8 (v.toNat % 2 ^ n * 2 ^ (8 - (ws.pendingBits.val + n) % 8))
        pendingBits := Fin.ofNat 8 ((ws.pendingBits.val + n) % 8) } := by
  have hk := ws.pendingBits.isLt
  have hrem : (n - (8 - ws.pendingBits.val)) % 8 = (ws.pendingBits.val + n) % 8 := by omega
  have hquo : (n - (8 - ws.pendingBits.val)) / 8 = (ws.pendingBits.val + n) / 8 - 1 := by omega
  rw [packBits, if_neg (by omega), mergeBits, countBits_pendingBits, if_neg (by omega), mergeAcrossBytes, emitBytes_eq, maskValue_eq]
  simp only [countBits_pendingBits, countBits_buffer, countBits_bitCount, countBits_cache, pushByte_buffer, pushByte_bitCount,
    hrem, hquo, byteOf, Nat.shiftRight_eq_div_pow, Nat.shiftLeft_eq, pushAll_cons]

/-- Settles O21: the bytes pushed are read back from `len(buffer)` on. -/
theorem bitsThatCompleteAByteAreEmitted : Obligations.BitsThatCompleteAByteAreEmitted := by
  intro s value w m hinv hmax h64 hfull hroom v free rest
  refine ⟨s.done (packBits value w.toNat s.writer), ?next, ?_⟩
  case next => rw [exec_wub, writeBits_of_supported ⟨hmax, h64⟩, commit_of_room hroom]
  rw [done_writer, packBits_of_overflow hfull]
  refine ⟨?length, ?first, fun j hj hlt => ?later, rfl, ?pending⟩
  case length =>
    rw [pushAll_length, List.length_cons, List.length_map, List.length_range]
    omega
  case first => exact pushAll_readByte_new hinv.canonical _ 0
  case later =>
    rw [pushAll_readByte_new hinv.canonical, show j = (j - 1) + 1 by omega, List.getElem?_cons_succ, List.getElem?_map,
      List.getElem?_range (by omega)]
    rfl
  case pending => exact Nat.mod_mod _ 8

end Sys2Proof.Machine
end

section
/-! The signed writes (spec/40_core_write.md R70, R71, spec/41_typed_writers.md R106 to R110): the folded pattern, where it is two's
complement, and where nothing is folded. -/

namespace Sys2Proof.Machine

/-! ### The pattern -/

/-- The low `n` bits of a two's-complement pattern are its value modulo 2^n. -/
theorem toNat_mod_eq_toInt_emod {k n : Nat} (h : n ≤ k) (v : BitVec k) : ((v.toNat % 2 ^ n : Nat) : Int) = v.toInt % 2 ^ n := by
  have hdvd : (2 : Int) ^ n ∣ 2 ^ k := pow_dvd_pow 2 h
  rw [BitVec.toInt_eq_toNat_bmod, Int.natCast_mod, Nat.cast_pow, Nat.cast_ofNat, ← Int.emod_emod_of_dvd (Int.bmod _ _) hdvd]
  rw [show (2 : Int) ^ k = ((2 ^ k : Nat) : Int) by norm_cast, Int.bmod_emod, Int.emod_emod_of_dvd _ (by exact_mod_cast hdvd)]

/-- A number whose top bit of `n + 1` is set keeps its value when that bit is forced to 1. -/
theorem or_top_bit {x n : Nat} (hlow : 2 ^ n ≤ x) (hhigh : x < 2 ^ (n + 1)) : x ||| 2 ^ n = x := by
  have hx : 2 ^ n ||| (x - 2 ^ n) = x := by
    rw [← Nat.one_mul (2 ^ n), or_eq_add (by rw [pow_succ] at hhigh; omega)]
    omega
  rw [← hx, Nat.or_right_comm, Nat.or_self]

theorem signedPattern_of_nonneg {v : Word} (h : 0 ≤ v.toInt) (w : Nat) : signedPattern v w = v.toNat % 2 ^ w :=
  if_neg (by omega)

/-- In the range of `w` bits the forced top bit is set already, so that the pattern is plain two's complement. -/
theorem signedPattern_of_in_range {v : Word} {w : Nat} (hpos : 1 ≤ w) (h64 : w ≤ 64) (hlow : -(2 : Int) ^ (w - 1) ≤ v.toInt) :
    signedPattern v w = v.toNat % 2 ^ w := by
  by_cases hneg : v.toInt < 0
  · obtain ⟨n, rfl⟩ : ∃ n, w = n + 1 := ⟨w - 1, by omega⟩
    rw [Nat.add_sub_cancel] at hlow
    have hdouble : (2 : Int) ^ (n + 1) = 2 * 2 ^ n := pow_succ' 2 n
    have hwrap : v.toInt % 2 ^ (n + 1) = v.toInt + 2 ^ (n + 1) := by
      rw [← Int.add_emod_right, Int.emod_eq_of_lt (by omega) (by omega)]
    have htop : 2 ^ n ≤ v.toNat % 2 ^ (n + 1) := by
      have hmod := toNat_mod_eq_toInt_emod h64 v
      zify at hmod ⊢
      omega
    rw [signedPattern, Nat.add_sub_cancel, or_top_bit htop (Nat.mod_lt _ (by positivity)), ite_self]
  · exact signedPattern_of_nonneg (by omega) w

/-- Settles O24: the committed signed write is the closed form on the folded pattern, and in range folding sets no new bit. -/
theorem signedWriteAppendsTheFoldedPattern : Obligations.SignedWriteAppendsTheFoldedPattern := by
  refine ⟨fun s v w m hinv hmax h64 hroom => writeSigned_eq hinv.clean v ⟨hmax, h64⟩ hroom, fun v w hpos h64 hlow _ => ?_⟩
  rw [signedPattern_of_in_range hpos h64 hlow, toNat_mod_eq_toInt_emod h64]

/-- Settles O28: each typed writer is the signed variant on the sign-extended value. -/
theorem signedTypedWritersAppendTheirPattern : Obligations.SignedTypedWritersAppendTheirPattern := by
  intro s w hinv hroom
  refine ⟨fun hw v => ?_, fun hw v => ?_, fun hw v => ?_, fun hw v => ?_⟩
  · exact writeSigned_eq hinv.clean _ (m := 8) ⟨hw, by omega⟩ hroom
  · exact writeSigned_eq hinv.clean _ (m := 16) ⟨hw, by omega⟩ hroom
  · exact writeSigned_eq hinv.clean _ (m := 32) ⟨hw, by omega⟩ hroom
  · exact writeSigned_eq hinv.clean v (m := 64) ⟨hw, hw⟩ hroom

/-! ### Where signed and unsigned agree -/

/-- On every state, the signed variant is the primitive on any value that has the folded pattern in its low bits. -/
theorem writeSigned_eq_writeBits {v v' : Word} {w : Byte} (hw : 1 ≤ w.toNat)
    (h : signedPattern v w.toNat = v'.toNat % 2 ^ w.toNat) (m : Byte) (s : State) :
    writeSigned v w m s = writeBits v' w m s := by
  by_cases hbad : m.toNat < w.toNat ∨ 64 < w.toNat
  · rw [writeSigned_of_unsupported hbad, writeBits_of_unsupported hbad]
  · have hok := supported_of_not_unsupported hbad
    rw [writeSigned_of_supported hok, writeBits_of_supported hok, if_neg (by omega),
      packBits_congr s.writer ((signFold_mod v hw hok.2).trans h)]

/-- Sign-extension keeps the value and its native low bits (R7), so that nothing is folded where the value is not negative, nor at
its native width. -/
theorem signedPattern_sextValue {n w : Nat} (hn : 1 ≤ n) (h64 : n ≤ 64) (v : BitVec n) (h : 0 ≤ v.toInt ∨ w = n) :
    signedPattern (sextValue v) w = (zextValue v).toNat % 2 ^ w := by
  have hvalue : (sextValue v).toInt = v.toInt := BitVec.toInt_signExtend_of_le h64
  rcases h with hnonneg | rfl
  · have hmsb : v.msb = false := by rw [BitVec.msb_eq_toInt, decide_eq_false (by omega)]
    rw [signedPattern_of_nonneg (by omega), sextValue, BitVec.signExtend_eq_setWidth_of_msb_false hmsb, zextValue]
  · have hbits : (sextValue v).toNat % 2 ^ w = v.toNat % 2 ^ w := by
      rw [← Int.natCast_inj, toNat_mod_eq_toInt_emod h64, toNat_mod_eq_toInt_emod le_rfl, hvalue]
    rw [signedPattern_of_in_range hn h64 (hvalue ▸ BitVec.le_toInt v), hbits, zextValue_toNat h64]

/-- A signed and an unsigned write of one operand agree where nothing is folded (R110); at width 0 neither writes. -/
theorem writeSigned_sextValue {n : Nat} (hn : 1 ≤ n) (h64 : n ≤ 64) {v : BitVec n} {w : Byte} (h : 0 ≤ v.toInt ∨ w.toNat = n)
    (m : Byte) (s : State) : writeSigned (sextValue v) w m s = writeBits (zextValue v) w m s := by
  rcases Nat.eq_zero_or_pos w.toNat with hzero | hpos
  · obtain rfl : w = 0 := BitVec.eq_of_toNat_eq hzero
    rw [writeSigned_width_zero, writeBits_width_zero]
  · exact writeSigned_eq_writeBits hpos (signedPattern_sextValue hn h64 v h) m s

theorem sextValue_word (v : Word) : sextValue v = v := BitVec.signExtend_eq v

theorem zextValue_word (v : Word) : zextValue v = v := BitVec.setWidth_eq v

/-- Settles O29: the four sizes of the agreement of the two writes. -/
theorem signedAndUnsignedAgreeWhereNothingIsFolded : Obligations.SignedAndUnsignedAgreeWhereNothingIsFolded := by
  intro s w
  refine ⟨fun v h => ?_, fun v h => ?_, fun v h => ?_, fun v h => ?_⟩ <;> replace h := h.imp_right (congrArg BitVec.toNat)
  · rw [exec_wi8, exec_wu8, writeSigned_sextValue (by decide) (by decide) h]
  · rw [exec_wi16, exec_wu16, writeSigned_sextValue (by decide) (by decide) h]
  · rw [exec_wi32, exec_wu32, writeSigned_sextValue (by decide) (by decide) h]
  · rw [exec_wi64, exec_wu64, ← sextValue_word v, writeSigned_sextValue (by decide) le_rfl h, zextValue_word, sextValue_word]

/-- Settles O26: each typed writer is one of the two generic writes at its native size, whose laws on unsupported widths and width 0
it takes over. -/
theorem typedWritersAreGenericWritesOfTheirSize : Obligations.TypedWritersAreGenericWritesOfTheirSize := by
  intro s w
  refine ⟨fun v => ?bool, fun v => rfl, fun v => rfl, fun v => rfl, fun v => rfl, fun v => rfl, fun v => rfl, fun v => rfl,
    fun v => rfl, ?_, ?_, ?_, ?_, ?_, ?zero⟩
  case bool => cases v <;> rfl
  case zero =>
    rintro rfl
    exact ⟨fun v => writeBits_width_zero (boolValue v) 1 s,
      fun v => ⟨writeBits_width_zero (zextValue v) 8 s, writeSigned_width_zero (sextValue v) 8 s⟩,
      fun v => ⟨writeBits_width_zero (zextValue v) 16 s, writeSigned_width_zero (sextValue v) 16 s⟩,
      fun v => ⟨writeBits_width_zero (zextValue v) 32 s, writeSigned_width_zero (sextValue v) 32 s⟩,
      fun v => ⟨writeBits_width_zero v 64 s, writeSigned_width_zero v 64 s⟩⟩
  · exact fun h v => writeBits_of_unsupported (m := 1) (.inl h) (boolValue v) s
  · exact fun h v => ⟨writeBits_of_unsupported (m := 8) (.inl h) (zextValue v) s,
      writeSigned_of_unsupported (m := 8) (.inl h) (sextValue v) s⟩
  · exact fun h v => ⟨writeBits_of_unsupported (m := 16) (.inl h) (zextValue v) s,
      writeSigned_of_unsupported (m := 16) (.inl h) (sextValue v) s⟩
  · exact fun h v => ⟨writeBits_of_unsupported (m := 32) (.inl h) (zextValue v) s,
      writeSigned_of_unsupported (m := 32) (.inl h) (sextValue v) s⟩
  · exact fun h v => ⟨writeBits_of_unsupported (m := 64) (.inl h) v s, writeSigned_of_unsupported (m := 64) (.inl h) v s⟩

end Sys2Proof.Machine
end

section
/-! SKIP and WBYTES (spec/42_structural.md R120 to R122, R126 to R129): zero bits and whole bytes, each in one command or in many. -/

namespace Sys2Proof.Machine

/-! ### SKIP -/

theorem finOfNat_mod (t : Nat) : Fin.ofNat 8 (t % 8) = Fin.ofNat 8 t := Fin.ext (Nat.mod_mod t 8)

/-- Zero bits in closed form (R122): below a byte only the counts change; from there on the cache leaves as it stands, followed by
zero bytes. -/
theorem appendBits_zeros {ws : WriterState} (h : ws.CacheClean) (n : Nat) :
    ws.appendBits 0 n =
      { buffer := if ws.pendingBits.val + n < 8 then ws.buffer
          else ws.buffer.pushAll (ws.cache :: List.replicate ((ws.pendingBits.val + n) / 8 - 1) 0)
        bitCount := ws.bitCount + BitVec.ofNat 64 n
        cache := if ws.pendingBits.val + n < 8 then ws.cache else 0
        pendingBits := Fin.ofNat 8 (ws.pendingBits.val + n) } := by
  by_cases hfit : ws.pendingBits.val + n < 8
  · rw [if_pos hfit, if_pos hfit]
    rcases Nat.eq_zero_or_pos n with rfl | hpos
    · rw [appendBits_zero h]
      apply writer_ext <;> simp
    · rw [show (0 : Nat) = (0 : Word).toNat from rfl, ← packBits_eq h, packBits_of_fit (by omega) hfit]
      simp
  · rw [if_neg hfit, if_neg hfit, show (0 : Nat) = (0 : Word).toNat from rfl, ← packBits_eq h, packBits_of_overflow (by omega),
      finOfNat_mod]
    simp [List.map_const']

/-- Settles O35: SKIP appends zero bits in closed form. -/
theorem skipPushesTheCacheAndZeroBytes : Obligations.SkipPushesTheCacheAndZeroBytes := by
  intro s n hinv hroom t
  rw [exec_skip, skipZeros_eq hinv.clean hroom, appendBits_zeros hinv.clean, BitVec.ofNat_toNat, BitVec.setWidth_eq]

/-- `n` one-bit zero writes are one append of `n` zero bits (R43). -/
theorem performAll_zero_bits {s : State} {n : Nat} (hc : s.writer.CacheClean) (hroom : s.RoomFor n) :
    ∃ t, performAll (List.replicate n (.wub 0 1 64)) s = .next t ∧ t.writer = s.writer.appendBits 0 n := by
  induction n generalizing s with
  | zero => exact ⟨s, performAll_nil s, (appendBits_zero hc 0).symm⟩
  | succ n ih =>
    rw [Nat.add_comm] at hroom
    obtain ⟨hone, hrest⟩ := room_add hroom 0
    have hfirst := exec_wub_at_64 hc 0 (w := 1) (by decide) hone
    obtain ⟨t, hperform, hwriter⟩ := ih (s := s.done (s.writer.appendBits 0 1)) (appendBits_clean 0 1) hrest
    refine ⟨t, (performAll_cons hfirst _).trans hperform, ?_⟩
    rw [hwriter, done_writer, appendBits_append, Nat.add_comm n 1, Nat.zero_mul, Nat.zero_add, Nat.zero_mod]

/-- Settles O36: both append `n` zero bits. -/
theorem skipIsThatManyOneBitWrites : Obligations.SkipIsThatManyOneBitWrites := by
  intro s n hinv hroom
  obtain ⟨t', hperform, hwriter⟩ := performAll_zero_bits hinv.clean hroom
  exact ⟨_, t', skipZeros_eq hinv.clean hroom, hperform, hwriter⟩

/-! ### WBYTES -/

theorem exec_wbytes_eq {s : State} (hc : s.writer.CacheClean) {bs : List Byte} (hroom : s.RoomFor (8 * bs.length)) :
    exec (.wbytes bs) s = .next (s.done (s.writer.appendBits (numberOfBytes bs) (8 * bs.length))) := by
  rw [exec_wbytes, appendBytes_eq hc, commit_of_room hroom]

/-- The bits of bytes as one number are the bytes' own, the first byte's first (R42). -/
theorem bitsOf_numberOfBytes (bs : List Byte) : bitsOf (numberOfBytes bs) (8 * bs.length) = bs.flatMap bitsOfByte := by
  have hbits := topBytes_bits (numberOfBytes bs) (8 * bs.length)
  rw [topBytes_numberOfBytes, Nat.mul_mod_right, pow_zero, Nat.div_one, Nat.mul_div_cancel_left _ (by decide)] at hbits
  exact hbits.symm

/-- Settles O40: both paths append the bytes as one number, whose bits are theirs. -/
theorem writeBytesAppendsItsBytesOnBothPaths : Obligations.WriteBytesAppendsItsBytesOnBothPaths := by
  intro s bs hinv hroom
  refine ⟨exec_wbytes_eq hinv.clean hroom, ?stream, Fin.ext ?pending⟩
  case stream => rw [appendBits_stream, bitsOf_numberOfBytes]
  case pending =>
    have hk := s.writer.pendingBits.isLt
    rw [appendBits_pendingBits]
    omega

/-- With bits pending WBYTES takes the slow path (R126). -/
theorem appendBytes_of_pending {ws : WriterState} (hp : ws.pendingBits ≠ 0) (bs : List Byte) :
    appendBytes bs ws = appendUnaligned bs ws := by
  have hunaligned : ¬ byteAligned ws = true := by simpa [byteAligned] using hp
  rw [appendBytes, if_neg hunaligned]

theorem ofNat_div_two_pow (b : Byte) (k : Nat) : BitVec.ofNat 8 (b.toNat / 2 ^ k) = b >>> k := by
  apply BitVec.eq_of_toNat_eq
  rw [BitVec.toNat_ofNat, BitVec.toNat_ushiftRight, Nat.shiftRight_eq_div_pow]
  exact Nat.mod_eq_of_lt ((Nat.div_le_self _ _).trans_lt b.isLt)

theorem ofNat_mul_two_pow (b : Byte) (k : Nat) : BitVec.ofNat 8 (b.toNat * 2 ^ k) = b <<< k := by
  apply BitVec.eq_of_toNat_eq
  rw [BitVec.toNat_ofNat, BitVec.toNat_shiftLeft, Nat.shiftLeft_eq]

/-- Settles O42: eight bits always complete a byte, and leave as many pending as before. -/
theorem writeBytesSlowPathShiftsEachByte : Obligations.WriteBytesSlowPathShiftsEachByte := by
  intro s b hp hroom
  have hk := s.writer.pendingBits.isLt
  have hone : (s.writer.pendingBits.val + 8) / 8 - 1 = 0 := by omega
  have hkeep : (s.writer.pendingBits.val + 8) % 8 = s.writer.pendingBits.val := by omega
  have hfree : 8 - (8 - s.writer.pendingBits.val) = s.writer.pendingBits.val := by omega
  have hpending : Fin.ofNat 8 s.writer.pendingBits.val = s.writer.pendingBits := Fin.ext (Nat.mod_eq_of_lt hk)
  have hb : (zextValue b).toNat % 2 ^ 8 = b.toNat := by rw [zextValue_toNat (by decide), Nat.mod_eq_of_lt b.isLt]
  rw [exec_wbytes, appendBytes_of_pending hp, List.length_singleton, commit_of_room hroom, appendUnaligned, appendUnaligned,
    packBits_of_overflow (by omega), hone, hkeep, hfree, hb, ofNat_div_two_pow, ofNat_mul_two_pow,
    List.range_zero, List.map_nil, pushAll_cons, pushAll_nil, hpending]
  rfl

/-- Bytes written one at a time at width 8 go the slow path's way, whatever is pending (R128). -/
theorem performAll_bytes {s : State} {bs : List Byte} (hc : s.writer.CacheClean) (hroom : s.RoomFor (8 * bs.length)) :
    ∃ t, performAll (bs.map fun b => .wu8 b 8) s = .next t ∧ t.writer = appendUnaligned bs s.writer := by
  induction bs generalizing s with
  | nil => exact ⟨s, performAll_nil s, rfl⟩
  | cons b bs ih =>
    rw [List.length_cons, Nat.mul_succ, Nat.add_comm] at hroom
    obtain ⟨hbyte, hrest⟩ := room_add hroom (zextValue b).toNat
    have hfirst : exec (.wu8 b 8) s = .next (s.done (packBits (zextValue b) 8 s.writer)) := by
      rw [exec_wu8, writeBits_of_supported (by decide)]
      exact commit_of_room hbyte _
    rw [← packBits_eq hc] at hrest
    obtain ⟨t, hperform, hwriter⟩ := ih (s := s.done (packBits (zextValue b) 8 s.writer))
      (by rw [done_writer, packBits_eq hc]; exact appendBits_clean _ _) hrest
    exact ⟨t, (performAll_cons hfirst _).trans hperform, hwriter⟩

/-- Settles O43: the bytes one at a time are the slow path, and WBYTES is that append on either path. -/
theorem writeBytesIsThatManyByteWrites : Obligations.WriteBytesIsThatManyByteWrites := by
  intro s bs hinv hroom
  obtain ⟨t', hperform, hwriter⟩ := performAll_bytes hinv.clean hroom
  exact ⟨_, t', exec_wbytes_eq hinv.clean hroom, hperform, hwriter.trans (appendUnaligned_eq hinv.clean bs)⟩

end Sys2Proof.Machine
end

section
/-! ALIGN and CLOSE (spec/42_structural.md R123 to R125, R130, R131): the pad, where it ends, and what it leaves in the buffer. -/

namespace Sys2Proof.Machine

/-! ### The pad -/

theorem padTo_lt (n : Nat) {k : Nat} (hk : 0 < k) : padTo n k < 8 * k := Nat.mod_lt _ (by omega)

theorem padTo_of_off_boundary {n k : Nat} (hk : 0 < k) (h : n % (8 * k) ≠ 0) : padTo n k = 8 * k - n % (8 * k) :=
  Nat.mod_eq_of_lt (by omega)

/-- The pad reaches the boundary (R124). -/
theorem add_padTo_mod (n : Nat) {k : Nat} (hk : 0 < k) : (n + padTo n k) % (8 * k) = 0 := by
  by_cases h : n % (8 * k) = 0
  · rw [padTo_eq_zero h, Nat.add_zero, h]
  · have hlt : n % (8 * k) < 8 * k := Nat.mod_lt _ (by omega)
    have hnext : n + (8 * k - n % (8 * k)) = 8 * k * (n / (8 * k) + 1) := by
      have hdiv := Nat.div_add_mod n (8 * k)
      rw [Nat.mul_succ]
      omega
    rw [padTo_of_off_boundary hk h, hnext, Nat.mul_mod_right]

/-- No smaller number of bits reaches the boundary: off it, what is left of the stride must be made up. -/
theorem padTo_le {n k p : Nat} (hk : 0 < k) (hp : (n + p) % (8 * k) = 0) : padTo n k ≤ p := by
  by_cases h : n % (8 * k) = 0
  · rw [padTo_eq_zero h]
    exact Nat.zero_le p
  · have hle : 8 * k ≤ n % (8 * k) + p := by
      refine Nat.le_of_dvd (by omega) (Nat.dvd_of_mod_eq_zero ?_)
      rw [Nat.mod_add_mod, hp]
    rw [padTo_of_off_boundary hk h]
    omega

/-- Settles O38: the model's pad is the spec's, with an exact product. -/
theorem thePadIsTheLeastThatReachesTheBoundary : Obligations.ThePadIsTheLeastThatReachesTheBoundary := by
  intro bitCount k hk
  have hpos := BitVec.toNat_pos_of_ne_zero hk
  exact ⟨padTo_lt _ hpos, add_padTo_mod _ hpos, fun p hp => padTo_le hpos hp⟩

/-! ### ALIGN -/

theorem alignTo_eq {s : State} (hc : s.writer.CacheClean) {k : BitVec 32} (hk : k ≠ 0)
    (hroom : s.RoomFor (padTo s.writer.bitCount.toNat k.toNat)) :
    alignTo k s = .next (s.done (s.writer.appendBits 0 (padTo s.writer.bitCount.toNat k.toNat))) := by
  rw [alignTo_of_pos hk, skipZeros_eq hc hroom]

/-- All that a successful ALIGN does: its pad was in range, and is appended as zero bits. -/
theorem alignTo_eq_next {s t : State} (hc : s.writer.CacheClean) {k : BitVec 32} (hk : k ≠ 0) (h : alignTo k s = .next t) :
    s.RoomFor (padTo s.writer.bitCount.toNat k.toNat) ∧
      t = s.done (s.writer.appendBits 0 (padTo s.writer.bitCount.toNat k.toNat)) := by
  rw [alignTo_of_pos hk, skipZeros, skipBits_eq hc] at h
  exact commit_eq_next h

/-- The pad of a 32-bit alignment stands in SKIP's operand. -/
theorem exec_align_eq_skip {k : BitVec 32} (hk : k ≠ 0) (s : State) :
    exec (.align k) s = exec (.skip (BitVec.ofNat 64 (padTo s.writer.bitCount.toNat k.toNat))) s := by
  have hpad := padTo_lt s.writer.bitCount.toNat (BitVec.toNat_pos_of_ne_zero hk)
  have hk32 := k.isLt
  rw [exec_align, alignTo_of_pos hk, exec_skip, BitVec.toNat_ofNat, Nat.mod_eq_of_lt (by omega)]

/-- The error a command answers is the one its operands have. -/
theorem errorOf_of_response_failed {i : Instr} {s t : State} {e : ErrorKind} (h : exec i s = .next t)
    (hresponse : t.response = some (Response.failed e)) : errorOf i = some e := by
  cases hi : errorOf i with
  | none =>
    obtain ⟨r, hr, hok⟩ := exec_status_ok hi h
    rw [hresponse] at hr
    cases hr
    cases hok
  | some e' =>
    rw [exec_of_errorOf_eq_some hi s] at h
    cases h
    cases hresponse
    rfl

theorem errorOf_eq_invalidArgument {i : Instr} (h : errorOf i = some .invalidArgument) : i = .align 0 := by
  cases i with
  | align k =>
    obtain ⟨hk, -⟩ := of_ite_some_eq_some h
    rw [BitVec.eq_of_toNat_eq (y := 0) hk]
  | wub _ _ _ | wsb _ _ _ | wbool _ _ | wu8 _ _ | wu16 _ _ | wu32 _ _ | wu64 _ _ | wi8 _ _ | wi16 _ _ | wi32 _ _ | wi64 _ _ =>
    obtain ⟨-, hkind⟩ := of_ite_some_eq_some h
    cases hkind
  | skip _ | wbytes _ | close | bitcnt | data => cases h

/-- Settles O37: ALIGN is the computed SKIP, and the table of errors has InvalidArgument in ALIGN's row alone. -/
theorem alignPadsWithTheComputedSkip : Obligations.AlignPadsWithTheComputedSkip := by
  intro s
  refine ⟨alignTo_zero s, fun k hk => ⟨exec_align_eq_skip hk s, fun hinv hroom =>
    ⟨alignTo_eq hinv.clean hk hroom, add_padTo_mod _ (BitVec.toNat_pos_of_ne_zero hk)⟩⟩,
    fun i t h hresponse => errorOf_eq_invalidArgument (errorOf_of_response_failed h hresponse), fun k t h hresponse => ?_⟩
  obtain ⟨-, hkind⟩ := of_ite_some_eq_some (errorOf_of_response_failed h hresponse)
  cases hkind

theorem no_pending_iff {ws : WriterState} (hinv : ws.Inv) : ws.pendingBits = 0 ↔ ws.bitCount.toNat % 8 = 0 := by
  refine ⟨bitCount_mod_eight_of_no_pending hinv, fun h => Fin.ext ?_⟩
  have hcounted := hinv.counted
  have hk := ws.pendingBits.isLt
  rw [Fin.val_zero]
  omega

theorem alignTo_bitCount_mod {s t : State} (hc : s.writer.CacheClean) {k : BitVec 32} (hk : k ≠ 0) (h : alignTo k s = .next t) :
    t.writer.bitCount.toNat % (8 * k.toNat) = 0 := by
  obtain ⟨hroom, rfl⟩ := alignTo_eq_next hc hk h
  rw [done_writer, appendBits_bitCount_toNat hroom]
  exact add_padTo_mod _ (BitVec.toNat_pos_of_ne_zero hk)

/-- A successful ALIGN leaves nothing pending (R125): its boundary is one of bytes. -/
theorem alignTo_no_pending {s t : State} (hinv : s.writer.Inv) {k : BitVec 32} (hk : k ≠ 0) (h : alignTo k s = .next t) :
    t.writer.pendingBits = 0 := by
  have hboundary := alignTo_bitCount_mod hinv.clean hk h
  have hinv' := exec_keeps_writer_inv (i := .align k) hinv h
  exact (no_pending_iff hinv').2 (Nat.mod_eq_zero_of_dvd ((Nat.dvd_mul_right 8 k.toNat).trans (Nat.dvd_of_mod_eq_zero hboundary)))

theorem alignTo_cache_zero {s t : State} (hinv : s.writer.Inv) {k : BitVec 32} (hk : k ≠ 0) (h : alignTo k s = .next t) :
    t.writer.cache = 0 :=
  cache_eq_zero_of_no_pending (exec_keeps_writer_inv (i := .align k) hinv h).clean (alignTo_no_pending hinv hk h)

/-- Settles O39: the end of the pad is the boundary, and on the boundary the pad is empty. -/
theorem alignEndsOnItsBoundary : Obligations.AlignEndsOnItsBoundary := by
  intro s k hinv hk
  exact ⟨fun t h => ⟨alignTo_bitCount_mod hinv.clean hk h, alignTo_no_pending hinv hk h, alignTo_cache_zero hinv hk h⟩,
    fun hboundary => alignTo_on_boundary hk hboundary⟩

/-! ### CLOSE -/

/-- The pad of CLOSE fills up the byte begun (R130). -/
theorem padTo_one {ws : WriterState} (hinv : ws.Inv) (hp : ws.pendingBits ≠ 0) :
    padTo ws.bitCount.toNat 1 = 8 - ws.pendingBits.val := by
  have hcounted := hinv.counted
  have hk := ws.pendingBits.isLt
  have hpos : ws.pendingBits.val ≠ 0 := fun h => hp (Fin.ext h)
  rw [padTo_of_off_boundary (by decide) (by omega)]
  omega

/-- The zero bits that fill up the byte begun push the cache as it stands. -/
theorem appendBits_fill {ws : WriterState} (hc : ws.CacheClean) :
    ws.appendBits 0 (8 - ws.pendingBits.val) =
      { buffer := ws.buffer.push ws.cache
        bitCount := ws.bitCount + BitVec.ofNat 64 (8 - ws.pendingBits.val)
        cache := 0
        pendingBits := 0 } := by
  have hk := ws.pendingBits.isLt
  have hfull : ws.pendingBits.val + (8 - ws.pendingBits.val) = 8 := by omega
  rw [appendBits_zeros hc, hfull]
  rfl

theorem one_ne_zero_32 : (1 : BitVec 32) ≠ 0 := by decide

/-- Settles O44: CLOSE is ALIGN 1 by definition; its pad is empty on a byte boundary and fills up the byte begun otherwise. -/
theorem closeFlushesTheCache : Obligations.CloseFlushesTheCache := by
  intro s
  refine ⟨rfl, fun hinv hp => alignTo_on_boundary one_ne_zero_32 ((no_pending_iff hinv).1 hp), fun hinv hp hroom => ?flush,
    fun t h => exec_response_done rfl (by decide) (by decide) h⟩
  case flush =>
    have hpad : padTo s.writer.bitCount.toNat (1 : BitVec 32).toNat = 8 - s.writer.pendingBits.val := padTo_one hinv hp
    rw [exec_close, alignTo_eq hinv.clean one_ne_zero_32 (hpad ▸ hroom), hpad, appendBits_fill hinv.clean]

/-- Settles O45: CLOSE leaves nothing pending, so that the second one stands on its boundary. -/
theorem closeIsIdempotent : Obligations.CloseIsIdempotent := by
  intro s t hinv h
  have hpending := alignTo_no_pending hinv one_ne_zero_32 h
  have hcache := alignTo_cache_zero hinv one_ne_zero_32 h
  have hboundary := alignTo_bitCount_mod hinv.clean one_ne_zero_32 h
  have hcounted := (exec_keeps_writer_inv (i := .close) hinv h).counted
  have hpad : padTo s.writer.bitCount.toNat (1 : BitVec 32).toNat < 8 := padTo_lt _ (by decide)
  have hk := s.writer.pendingBits.isLt
  have hagain : alignTo 1 t = .next (t.done t.writer) := alignTo_on_boundary one_ne_zero_32 hboundary
  rw [hpending, Fin.val_zero, Nat.add_zero] at hcounted
  obtain ⟨hroom, rfl⟩ := alignTo_eq_next hinv.clean one_ne_zero_32 h
  refine ⟨hpending, hcache, hcounted, ?_, ?_, hagain⟩
  · rw [done_writer, appendBits_bitCount_toNat hroom]
    omega
  · rw [done_writer, appendBits_length]
    omega

/-! ### The buffer after a flush -/

theorem bitsOf_zero_left (n : Nat) : bitsOf 0 n = List.replicate n false := by
  simp [bitsOf, List.map_const']

/-- After a successful ALIGN the buffer holds the whole stream and its padding (R54): no bit is left in the cache. -/
theorem alignTo_bytes {s t : State} (hinv : s.writer.Inv) {k : BitVec 32} (hk : k ≠ 0) (h : alignTo k s = .next t) :
    t.writer.buffer.bytes.flatMap bitsOfByte =
      s.writer.stream ++ List.replicate (padTo s.writer.bitCount.toNat k.toNat) false := by
  have hpending := alignTo_no_pending hinv hk h
  obtain ⟨-, rfl⟩ := alignTo_eq_next hinv.clean hk h
  rw [bytes_eq_stream_of_no_pending (congrArg Fin.val hpending), done_writer, appendBits_stream, bitsOf_zero_left]

/-- Settles O46: CLOSE is ALIGN 1, and every ALIGN leaves the padded stream in the buffer. -/
theorem flushMakesTheBufferComplete : Obligations.FlushMakesTheBufferComplete := by
  rintro i s t hinv (rfl | ⟨k, hk, rfl⟩) h
  · exact alignTo_bytes hinv one_ne_zero_32 h
  · exact alignTo_bytes hinv hk h

/-! ### Byte-aligned -/

theorem byteAligned_iff (ws : WriterState) : byteAligned ws = true ↔ ws.pendingBits = 0 := beq_iff_eq

/-- Settles O53: byte-aligned is nothing pending, which CLOSE and ALIGN reach and WBYTES keeps. -/
theorem byteAlignedFollowsTheCounter : Obligations.ByteAlignedFollowsTheCounter := by
  refine ⟨rfl, fun s hinv => ⟨(byteAligned_iff _).trans (no_pending_iff hinv), fun t h => ?close, fun k t hk h => ?align,
    fun bs t h => ?wbytes⟩⟩
  case close => exact (byteAligned_iff _).2 (alignTo_no_pending hinv one_ne_zero_32 h)
  case align => exact (byteAligned_iff _).2 (alignTo_no_pending hinv hk h)
  case wbytes =>
    have happ := exec_appended (i := .wbytes bs) hinv.clean rfl h
    rw [byteAligned, byteAligned, happ.pendingBits_eq_of_bytes]

end Sys2Proof.Machine
end
